-- ==== Sys2Proof/Word.lean ====
section
/-! DEFINITION. The word types of THE CORE (00_scope.md R11, R14; 10_state.md R20, R23, R24). -/

namespace Sys2Proof

/-- An 8-bit value: a register V[i], a timer, a memory byte, the immediate NN. -/
abbrev Byte := BitVec 8

/-- A 16-bit value: an instruction word, I, pc, a stack slot. -/
abbrev Word := BitVec 16

/-- A 12-bit address field, NNN. -/
abbrev Addr := BitVec 12

/-- A 4-bit field: N, or a logical key code. -/
abbrev Nibble := BitVec 4

/-- A register index, the field X or Y; every value names a register (30_encoding.md R93). -/
abbrev RegIdx := BitVec 4

/-- VF, the register that doubles as the flag register (10_state.md R20, R21). -/
abbrev vf : RegIdx := 0xF#4

end Sys2Proof
end

