-- ==== Sys2Proof/Syntax.lean ====
section
/-! DEFINITION. The instructions of THE CORE: one constructor per row of the opcode table
(30_encoding.md R95). Operands are the fields of R91, each of its own width. -/

namespace Sys2Proof

inductive Instr where
  /-- 00E0 `CLS` (R211) -/
  | cls
  /-- 00EE `RET` (R143) -/
  | ret
  /-- 1NNN `JP nnn` (R141) -/
  | jp (nnn : Addr)
  /-- 2NNN `CALL nnn` (R142) -/
  | call (nnn : Addr)
  /-- 3XNN `SE Vx, nn` (R144) -/
  | seImm (x : RegIdx) (nn : Byte)
  /-- 4XNN `SNE Vx, nn` (R145) -/
  | sneImm (x : RegIdx) (nn : Byte)
  /-- 5XY0 `SE Vx, Vy` (R146) -/
  | seReg (x y : RegIdx)
  /-- 6XNN `LD Vx, nn` (R161) -/
  | ldImm (x : RegIdx) (nn : Byte)
  /-- 7XNN `ADD Vx, nn` (R162) -/
  | addImm (x : RegIdx) (nn : Byte)
  /-- 8XY0 `LD Vx, Vy` (R163) -/
  | ldReg (x y : RegIdx)
  /-- 8XY1 `OR Vx, Vy` (R167) -/
  | orReg (x y : RegIdx)
  /-- 8XY2 `AND Vx, Vy` (R168) -/
  | andReg (x y : RegIdx)
  /-- 8XY3 `XOR Vx, Vy` (R169) -/
  | xorReg (x y : RegIdx)
  /-- 8XY4 `ADD Vx, Vy` (R164) -/
  | addReg (x y : RegIdx)
  /-- 8XY5 `SUB Vx, Vy` (R165) -/
  | sub (x y : RegIdx)
  /-- 8XY6 `SHR Vx, Vy` (R170) -/
  | shr (x y : RegIdx)
  /-- 8XY7 `SUBN Vx, Vy` (R166) -/
  | subn (x y : RegIdx)
  /-- 8XYE `SHL Vx, Vy` (R171) -/
  | shl (x y : RegIdx)
  /-- 9XY0 `SNE Vx, Vy` (R147) -/
  | sneReg (x y : RegIdx)
  /-- ANNN `LD I, nnn` (R192) -/
  | ldI (nnn : Addr)
  /-- BNNN `JP V0, nnn` (R148) -/
  | jpV0 (nnn : Addr)
  /-- CXNN `RND Vx, nn` (R175) -/
  | rnd (x : RegIdx) (nn : Byte)
  /-- DXYN `DRW Vx, Vy, n` (R215) -/
  | drw (x y : RegIdx) (n : Nibble)
  /-- EX9E `SKP Vx` (R233) -/
  | skp (x : RegIdx)
  /-- EXA1 `SKNP Vx` (R234) -/
  | sknp (x : RegIdx)
  /-- FX07 `LD Vx, DT` (R252) -/
  | ldVxDt (x : RegIdx)
  /-- FX0A `LD Vx, K` (R235) -/
  | ldVxK (x : RegIdx)
  /-- FX15 `LD DT, Vx` (R253) -/
  | ldDtVx (x : RegIdx)
  /-- FX18 `LD ST, Vx` (R254) -/
  | ldStVx (x : RegIdx)
  /-- FX1E `ADD I, Vx` (R194) -/
  | addIVx (x : RegIdx)
  /-- FX29 `LD F, Vx` (R193) -/
  | ldFVx (x : RegIdx)
  /-- FX33 `LD B, Vx` (R196) -/
  | ldBVx (x : RegIdx)
  /-- FX55 `LD [I], Vx` (R197) -/
  | ldIMemVx (x : RegIdx)
  /-- FX65 `LD Vx, [I]` (R198) -/
  | ldVxIMem (x : RegIdx)
  deriving DecidableEq, Repr

end Sys2Proof
end

