-- ==== Sys2Proof/WellFormed.lean ====
section
/-! DEFINITION. Well-formedness. Every field of an `Instr` has its own width, so every term of
`Instr` is an instruction the encoding admits (30_encoding.md R93); what can be ill-formed is a
WORD. `legalWord` is R95's table read as masks and matches; it shares nothing with the decoder. -/

namespace Sys2Proof

/-- One row of the opcode table: a word `w` matches it when `w &&& mask = match` (R95). -/
structure OpcodeRow where
  mnemonic : String
  mtch : Word
  mask : Word
  deriving DecidableEq, Repr

namespace OpcodeRow

def matchesWord (r : OpcodeRow) (w : Word) : Bool := w &&& r.mask == r.mtch

end OpcodeRow

/-- Rows 1 to 9 and 19 to 23 of R95: families 0 to 7, 9 and A to D. -/
def opcodeRowsPlain : List OpcodeRow :=
  [⟨"CLS", 0x00E0, 0xFFFF⟩, ⟨"RET", 0x00EE, 0xFFFF⟩, ⟨"JP", 0x1000, 0xF000⟩, ⟨"CALL", 0x2000, 0xF000⟩,
   ⟨"SE_imm", 0x3000, 0xF000⟩, ⟨"SNE_imm", 0x4000, 0xF000⟩, ⟨"SE_reg", 0x5000, 0xF00F⟩,
   ⟨"LD_imm", 0x6000, 0xF000⟩, ⟨"ADD_imm", 0x7000, 0xF000⟩, ⟨"SNE_reg", 0x9000, 0xF00F⟩,
   ⟨"LD_I", 0xA000, 0xF000⟩, ⟨"JP_V0", 0xB000, 0xF000⟩, ⟨"RND", 0xC000, 0xF000⟩, ⟨"DRW", 0xD000, 0xF000⟩]

/-- Rows 10 to 18 of R95: the 8-family. -/
def opcodeRowsAlu : List OpcodeRow :=
  [⟨"LD_reg", 0x8000, 0xF00F⟩, ⟨"OR", 0x8001, 0xF00F⟩, ⟨"AND", 0x8002, 0xF00F⟩, ⟨"XOR", 0x8003, 0xF00F⟩,
   ⟨"ADD_reg", 0x8004, 0xF00F⟩, ⟨"SUB", 0x8005, 0xF00F⟩, ⟨"SHR", 0x8006, 0xF00F⟩,
   ⟨"SUBN", 0x8007, 0xF00F⟩, ⟨"SHL", 0x800E, 0xF00F⟩]

/-- Rows 24 to 34 of R95: the E- and F-families. -/
def opcodeRowsMisc : List OpcodeRow :=
  [⟨"SKP", 0xE09E, 0xF0FF⟩, ⟨"SKNP", 0xE0A1, 0xF0FF⟩, ⟨"LD_Vx_DT", 0xF007, 0xF0FF⟩,
   ⟨"LD_Vx_K", 0xF00A, 0xF0FF⟩, ⟨"LD_DT_Vx", 0xF015, 0xF0FF⟩, ⟨"LD_ST_Vx", 0xF018, 0xF0FF⟩,
   ⟨"ADD_I_Vx", 0xF01E, 0xF0FF⟩, ⟨"LD_F_Vx", 0xF029, 0xF0FF⟩, ⟨"LD_B_Vx", 0xF033, 0xF0FF⟩,
   ⟨"LD_I_mem_Vx", 0xF055, 0xF0FF⟩, ⟨"LD_Vx_I_mem", 0xF065, 0xF0FF⟩]

/-- The opcode table of R95: 34 rows. -/
def opcodeTable : List OpcodeRow := opcodeRowsPlain ++ opcodeRowsAlu ++ opcodeRowsMisc

/-- THE CORE decodes exactly the words some row matches (R95, R97). -/
def legalWord (w : Word) : Bool := opcodeTable.any (·.matchesWord w)

/-- The mnemonic of the table's row for an instruction (spec/opcode_table.json). -/
def Instr.mnemonic : Instr → String
  | .cls => "CLS"
  | .ret => "RET"
  | .jp _ => "JP"
  | .call _ => "CALL"
  | .seImm _ _ => "SE_imm"
  | .sneImm _ _ => "SNE_imm"
  | .seReg _ _ => "SE_reg"
  | .ldImm _ _ => "LD_imm"
  | .addImm _ _ => "ADD_imm"
  | .ldReg _ _ => "LD_reg"
  | .orReg _ _ => "OR"
  | .andReg _ _ => "AND"
  | .xorReg _ _ => "XOR"
  | .addReg _ _ => "ADD_reg"
  | .sub _ _ => "SUB"
  | .shr _ _ => "SHR"
  | .subn _ _ => "SUBN"
  | .shl _ _ => "SHL"
  | .sneReg _ _ => "SNE_reg"
  | .ldI _ => "LD_I"
  | .jpV0 _ => "JP_V0"
  | .rnd _ _ => "RND"
  | .drw _ _ _ => "DRW"
  | .skp _ => "SKP"
  | .sknp _ => "SKNP"
  | .ldVxDt _ => "LD_Vx_DT"
  | .ldVxK _ => "LD_Vx_K"
  | .ldDtVx _ => "LD_DT_Vx"
  | .ldStVx _ => "LD_ST_Vx"
  | .addIVx _ => "ADD_I_Vx"
  | .ldFVx _ => "LD_F_Vx"
  | .ldBVx _ => "LD_B_Vx"
  | .ldIMemVx _ => "LD_I_mem_Vx"
  | .ldVxIMem _ => "LD_Vx_I_mem"

end Sys2Proof
end

