-- ==== Sys2Proof/Decode.lean ====
section
/-! DEFINITION. Decoding (30_encoding.md R90 to R99), total on any bytes and rejecting by name, and
the encoder written from the same layouts (R94, R95). -/

namespace Sys2Proof

/-- Why a word or a list of bytes is no instruction (R97). -/
inductive Reject where
  /-- fewer than the two bytes of a word; a fetch never gives this -/
  | tooShort
  /-- 0x0000-0x0FFF except 0x00E0 and 0x00EE, the 0NNN ("SYS") words among them -/
  | family0 (w : Word)
  /-- 0x5XYn or 0x9XYn with n other than 0 -/
  | compareReg (w : Word)
  /-- 0x8XYn with n = 8..D or F -/
  | family8 (w : Word)
  /-- 0xEXnn with nn other than 9E and A1 -/
  | familyE (w : Word)
  /-- 0xFXnn with nn outside the nine sub-opcodes of rows 26 to 34 -/
  | familyF (w : Word)
  deriving DecidableEq, Repr

/-! The fields of a word (R91). -/

def opField (w : Word) : Nibble := w.extractLsb' 12 4
def xField (w : Word) : RegIdx := w.extractLsb' 8 4
def yField (w : Word) : RegIdx := w.extractLsb' 4 4
def nField (w : Word) : Nibble := w.extractLsb' 0 4
def nnField (w : Word) : Byte := w.extractLsb' 0 8
def nnnField (w : Word) : Addr := w.extractLsb' 0 12

/-- The 0-family: only the two whole words are instructions (R96). -/
def decode0 (w : Word) : Except Reject Instr :=
  if w = 0x00E0#16 then .ok .cls
  else if w = 0x00EE#16 then .ok .ret
  else .error (.family0 w)

/-- The 8-family, by its sub-opcode N (R96, rows 10 to 18). -/
def decode8 (w : Word) : Except Reject Instr :=
  let x := xField w
  let y := yField w
  let n := nField w
  if n = 0x0#4 then .ok (.ldReg x y)
  else if n = 0x1#4 then .ok (.orReg x y)
  else if n = 0x2#4 then .ok (.andReg x y)
  else if n = 0x3#4 then .ok (.xorReg x y)
  else if n = 0x4#4 then .ok (.addReg x y)
  else if n = 0x5#4 then .ok (.sub x y)
  else if n = 0x6#4 then .ok (.shr x y)
  else if n = 0x7#4 then .ok (.subn x y)
  else if n = 0xE#4 then .ok (.shl x y)
  else .error (.family8 w)

/-- The E-family, by its sub-opcode byte NN (R96, rows 24 and 25). -/
def decodeE (w : Word) : Except Reject Instr :=
  if nnField w = 0x9E#8 then .ok (.skp (xField w))
  else if nnField w = 0xA1#8 then .ok (.sknp (xField w))
  else .error (.familyE w)

/-- The F-family, by its sub-opcode byte NN (R96, rows 26 to 34). -/
def decodeF (w : Word) : Except Reject Instr :=
  let x := xField w
  let nn := nnField w
  if nn = 0x07#8 then .ok (.ldVxDt x)
  else if nn = 0x0A#8 then .ok (.ldVxK x)
  else if nn = 0x15#8 then .ok (.ldDtVx x)
  else if nn = 0x18#8 then .ok (.ldStVx x)
  else if nn = 0x1E#8 then .ok (.addIVx x)
  else if nn = 0x29#8 then .ok (.ldFVx x)
  else if nn = 0x33#8 then .ok (.ldBVx x)
  else if nn = 0x55#8 then .ok (.ldIMemVx x)
  else if nn = 0x65#8 then .ok (.ldVxIMem x)
  else .error (.familyF w)

/-- Decode (R96): a total function from a 16-bit word to an instruction or a rejection by name. -/
def decodeWord (w : Word) : Except Reject Instr :=
  let op := opField w
  let x := xField w
  if op = 0x0#4 then decode0 w
  else if op = 0x1#4 then .ok (.jp (nnnField w))
  else if op = 0x2#4 then .ok (.call (nnnField w))
  else if op = 0x3#4 then .ok (.seImm x (nnField w))
  else if op = 0x4#4 then .ok (.sneImm x (nnField w))
  else if op = 0x5#4 then
    (if nField w = 0x0#4 then .ok (.seReg x (yField w)) else .error (.compareReg w))
  else if op = 0x6#4 then .ok (.ldImm x (nnField w))
  else if op = 0x7#4 then .ok (.addImm x (nnField w))
  else if op = 0x8#4 then decode8 w
  else if op = 0x9#4 then
    (if nField w = 0x0#4 then .ok (.sneReg x (yField w)) else .error (.compareReg w))
  else if op = 0xA#4 then .ok (.ldI (nnnField w))
  else if op = 0xB#4 then .ok (.jpV0 (nnnField w))
  else if op = 0xC#4 then .ok (.rnd x (nnField w))
  else if op = 0xD#4 then .ok (.drw x (yField w) (nField w))
  else if op = 0xE#4 then decodeE w
  else decodeF w

/-- The word of two bytes, the first in the high half (20_memory.md R64). -/
def wordOfBytes (hi lo : Byte) : Word := hi ++ lo

/-- The bytes of a word as memory holds them, the high byte first (R64). -/
def bytesOfWord (w : Word) : List Byte := [w.extractLsb' 8 8, w.extractLsb' 0 8]

/-- Decode the instruction at the head of a list of bytes; every instruction is exactly two bytes
(R99). -/
def decode : List Byte → Except Reject (Instr × List Byte)
  | hi :: lo :: rest =>
    match decodeWord (wordOfBytes hi lo) with
    | .ok i => .ok (i, rest)
    | .error e => .error e
  | _ => .error .tooShort

/-! ## The encoder (R94, R95, R100) -/

/-- Layout NNN: an opcode nibble and a 12-bit address. -/
def layoutNNN (op : Nibble) (nnn : Addr) : Word := op ++ nnn
/-- Layout XNN: an opcode nibble, a register, an 8-bit immediate or sub-opcode byte. -/
def layoutXNN (op : Nibble) (x : RegIdx) (nn : Byte) : Word := op ++ x ++ nn
/-- Layouts XY and XYN: an opcode nibble, two registers, a nibble. -/
def layoutXYN (op : Nibble) (x y : RegIdx) (n : Nibble) : Word := op ++ x ++ y ++ n

/-- The word of an instruction (R95, R100). -/
def encode : Instr → Word
  | .cls => 0x00E0#16
  | .ret => 0x00EE#16
  | .jp nnn => layoutNNN 0x1 nnn
  | .call nnn => layoutNNN 0x2 nnn
  | .seImm x nn => layoutXNN 0x3 x nn
  | .sneImm x nn => layoutXNN 0x4 x nn
  | .seReg x y => layoutXYN 0x5 x y 0x0
  | .ldImm x nn => layoutXNN 0x6 x nn
  | .addImm x nn => layoutXNN 0x7 x nn
  | .ldReg x y => layoutXYN 0x8 x y 0x0
  | .orReg x y => layoutXYN 0x8 x y 0x1
  | .andReg x y => layoutXYN 0x8 x y 0x2
  | .xorReg x y => layoutXYN 0x8 x y 0x3
  | .addReg x y => layoutXYN 0x8 x y 0x4
  | .sub x y => layoutXYN 0x8 x y 0x5
  | .shr x y => layoutXYN 0x8 x y 0x6
  | .subn x y => layoutXYN 0x8 x y 0x7
  | .shl x y => layoutXYN 0x8 x y 0xE
  | .sneReg x y => layoutXYN 0x9 x y 0x0
  | .ldI nnn => layoutNNN 0xA nnn
  | .jpV0 nnn => layoutNNN 0xB nnn
  | .rnd x nn => layoutXNN 0xC x nn
  | .drw x y n => layoutXYN 0xD x y n
  | .skp x => layoutXNN 0xE x 0x9E
  | .sknp x => layoutXNN 0xE x 0xA1
  | .ldVxDt x => layoutXNN 0xF x 0x07
  | .ldVxK x => layoutXNN 0xF x 0x0A
  | .ldDtVx x => layoutXNN 0xF x 0x15
  | .ldStVx x => layoutXNN 0xF x 0x18
  | .addIVx x => layoutXNN 0xF x 0x1E
  | .ldFVx x => layoutXNN 0xF x 0x29
  | .ldBVx x => layoutXNN 0xF x 0x33
  | .ldIMemVx x => layoutXNN 0xF x 0x55
  | .ldVxIMem x => layoutXNN 0xF x 0x65

/-- The 16-bit word of an opcode-table number: bit 0 of `w` is bit 0 of the (only) word; bits at and
above `nbits` are 0. -/
def tableWord (nbits w : Nat) : Word := BitVec.ofNat 16 (w % 2 ^ nbits)

/-- The instruction the decoder reads from the bytes of a table word laid out as memory holds them
(R64). -/
def decodeTableWord (nbits w : Nat) : Option Instr :=
  match decode (bytesOfWord (tableWord nbits w)) with
  | .ok (i, _) => some i
  | .error _ => none

end Sys2Proof
end

