-- ==== Sys2Proof/Config.lean ====
section
/-! DEFINITION. The implementation parameters of THE CORE (00_scope.md R9, R10) and the free values
the spec leaves open (R46, R47, R48). -/

namespace Sys2Proof

/-- FONT_INDEX_MODE (R9, R193): what FX29 does with V[X] > 0xF. -/
inductive FontIndexMode where
  | lowNibble
  | full
  | fault
  deriving DecidableEq, Repr

/-- KEY_RANGE_MODE (R9, R232): what EX9E and EXA1 do with V[X] > 0xF. -/
inductive KeyRangeMode where
  | fault
  | lowNibble
  | notDown
  deriving DecidableEq, Repr

/-- The parameters a model of THE CORE takes (R9). Their default values are
`Machine.defaultConfig`, in Machine/Defaults.lean. DESIGN CHOICE (log 4): `exec` has no
configuration argument, so a state carries this record and no step changes it. -/
structure Config where
  /-- FB_W, columns of the framebuffer (R210) -/
  fbW : Nat
  /-- FB_H, rows of the framebuffer (R210) -/
  fbH : Nat
  /-- FONT: 16 glyphs of 5 bytes (R225) -/
  font : Vector (Vector Byte 5) 16
  /-- SHIFT_USES_VY (R170, R171) -/
  shiftUsesVy : Bool
  /-- LOGIC_CLEARS_VF (R167, R168, R169) -/
  logicClearsVf : Bool
  /-- LOADSTORE_INCREMENTS_I (R197, R198) -/
  loadStoreIncrementsI : Bool
  /-- JUMP_USES_VX (R148) -/
  jumpUsesVx : Bool
  fontIndexMode : FontIndexMode
  keyRangeMode : KeyRangeMode
  deriving DecidableEq, Repr

namespace Config

/-- A framebuffer has at least one column and one row. -/
abbrev Wf (c : Config) : Prop := 0 < c.fbW ∧ 0 < c.fbH

/-- FREE VALUE (log 5). The random byte CXNN consumes (R48, R175): a draw with no law. The argument
counts the inputs sampled so far, so every execution has a draw of its own. -/
opaque randDraw : Nat → Byte

/-- FREE VALUE (log 6). The snapshot of `key_down[15:0]` that EX9E or EXA1 takes (R46, R231). -/
opaque keyDownSample : Nat → BitVec 16

/-- FREE VALUE (log 7). What one observation of the `key_event` input finds in phase WaitKey
(R47, R237): a key code, or none while the host delivers no event. -/
opaque keyEventSample : Nat → Option Nibble

end Config

end Sys2Proof
end

