-- ==== Sys2Proof/Machine/Defaults.lean ====
section
/-! DEFINITION. The default value of every parameter of 00_scope.md R9: the standard font (44_display.md
R225, [from general knowledge, not in source], log 14) and the default configuration (log 4). -/

namespace Sys2Proof.Machine

/-- Glyphs 0 to 7 of R225. -/
def fontLow : Vector (Vector Byte 5) 8 :=
  #v[#v[0xF0, 0x90, 0x90, 0x90, 0xF0], #v[0x20, 0x60, 0x20, 0x20, 0x70],
     #v[0xF0, 0x10, 0xF0, 0x80, 0xF0], #v[0xF0, 0x10, 0xF0, 0x10, 0xF0],
     #v[0x90, 0x90, 0xF0, 0x10, 0x10], #v[0xF0, 0x80, 0xF0, 0x10, 0xF0],
     #v[0xF0, 0x80, 0xF0, 0x90, 0xF0], #v[0xF0, 0x10, 0x20, 0x40, 0x40]]

/-- Glyphs 8 to F of R225. -/
def fontHigh : Vector (Vector Byte 5) 8 :=
  #v[#v[0xF0, 0x90, 0xF0, 0x90, 0xF0], #v[0xF0, 0x90, 0xF0, 0x10, 0xF0],
     #v[0xF0, 0x90, 0xF0, 0x90, 0x90], #v[0xE0, 0x90, 0xE0, 0x90, 0xE0],
     #v[0xF0, 0x80, 0x80, 0x80, 0xF0], #v[0xE0, 0x90, 0x90, 0x90, 0xE0],
     #v[0xF0, 0x80, 0xF0, 0x80, 0xF0], #v[0xF0, 0x80, 0xF0, 0x80, 0x80]]

/-- FONT: the 16 glyphs, 0 first (R225). -/
def standardFont : Vector (Vector Byte 5) 16 := fontLow ++ fontHigh

/-- The defaults of R9. -/
def defaultConfig : Config where
  fbW := 64
  fbH := 32
  font := standardFont
  shiftUsesVy := false
  logicClearsVf := false
  loadStoreIncrementsI := false
  jumpUsesVx := false
  fontIndexMode := .lowNibble
  keyRangeMode := .fault

end Sys2Proof.Machine
end

