-- ==== Sys2Proof/Machine/State.lean ====
section
/-! DEFINITION. The state of THE CORE (10_state.md R20 to R43), its value after reset (R55) and the
reasons a step can stop. -/

namespace Sys2Proof.Machine

/-- The phase (R40). No instruction reads it. -/
inductive Phase where
  /-- reset is done and no cycle has run -/
  | idle
  /-- cycles execute -/
  | running
  /-- an FX0A with register index `x` is suspended, waiting for a key event -/
  | waitKey (x : RegIdx)
  /-- a fatal error has occurred; the fault record names it -/
  | halted
  deriving DecidableEq, Repr

/-- The kinds of fault (60_exceptions.md R270). A fault of THE CORE is taken: it ends in a next state
whose phase is `halted` (R125, R272; log 1). -/
inductive FaultKind where
  /-- image longer than 3584 bytes (R303) -/
  | loadError
  /-- the fetched word is no instruction (R123) -/
  | decodeError
  /-- CALL with SP = 16 (R142) -/
  | stackOverflow
  /-- RET with SP = 0 (R143) -/
  | stackUnderflow
  /-- EX9E or EXA1 with V[X] > 0xF and KEY_RANGE_MODE = fault (R232) -/
  | keyRange
  /-- FX29 with V[X] > 0xF and FONT_INDEX_MODE = fault (R193) -/
  | fontRange
  deriving DecidableEq, Repr

/-- The fault record (R41). `info` is the image length of a LoadError and the register value of a
KeyRange or FontRange; the other kinds record none (R270; log 10). -/
structure FaultRecord where
  kind : FaultKind
  pc : Word
  word : Word
  info : Option Nat
  deriving DecidableEq, Repr

/-- Memory: the bytes that differ from what an unlisted address reads as, addresses strictly rising
(log 9). -/
abbrev Memory := List Host.Cell

/-- A framebuffer cell (x, y): column, row (44_display.md R210). -/
abbrev Pixel := Nat × Nat

/-- The framebuffer: the cells that are 1, in row-major order (R31, R210; log 12). -/
abbrev Framebuffer := List Pixel

/-- Everything the spec gives the machine, and two fields of the model's own: `samples` and `config`. -/
structure State where
  /-- V0..VF (R20); VF is `v[15]` (R21) -/
  v : Vector Byte 16
  /-- the index register I, 16 bits (R23, R191) -/
  i : Word
  /-- the program counter (R24) -/
  pc : Word
  /-- Stack[0..15] (R25) -/
  stack : Vector Word 16
  /-- SP, the stack depth, 0 to 16 (R25) -/
  sp : Fin 17
  /-- the delay timer DT (R28) -/
  dt : Byte
  /-- the sound timer ST (R29) -/
  st : Byte
  /-- the 4096 bytes of memory (R30, R60) -/
  mem : Memory
  /-- the framebuffer FB (R31) -/
  fb : Framebuffer
  /-- the phase (R40) -/
  phase : Phase
  /-- the fault record, `none` while it is invalid (R41) -/
  faultRecord : Option FaultRecord
  /-- an image has been loaded since reset (R42) -/
  loaded : Bool
  /-- THE MODEL'S OWN: how many inputs have been sampled; the free values of Config.lean are applied
  to it (log 8) -/
  samples : Nat
  /-- THE MODEL'S OWN: the parameters of R9, which no step changes (log 4) -/
  config : Config
  deriving DecidableEq, Repr

/-- Reasons for `Outcome.fault`. There are none: every fault the spec names is TAKEN, as a next state
with phase Halted and the fault record written (R125, R272; log 1). Nothing raises one: safe. -/
inductive Fault where
  deriving DecidableEq, Repr

/-- Reasons for `Outcome.refused`: the command is one 70_reset_and_hazards.md R306 gives no meaning. A refusal
sets the mark of the run (`Run.mark`, Machine/HostInterface.lean; log 2). -/
inductive Refusal where
  /-- raised by `exec` for an instruction without a meaning; no arm raises it. Safe. -/
  | notModelled (mnemonic : String)
  /-- raised by `execute_cycle()` in Idle with loaded = 0 (R127, R306). Safe. -/
  | cycleBeforeLoad
  /-- raised by `execute_cycle()` in Halted (R128, R306). Safe. -/
  | cycleInHalted
  /-- raised by `load_program` when the phase is not Idle or loaded = 1 (R306). Safe. -/
  | loadOutOfOrder
  /-- raised by `execute_cycle()` or `reset()` in WaitKey: the blocked call has not returned, so the
  host cannot issue a command (R129, R300; log 15). Safe. -/
  | commandInWait
  deriving DecidableEq, Repr

/-- The state after `reset()` of a machine with parameters `c` (R55, R300). The memory lists nothing:
an unlisted address reads as its reset contents (log 9). -/
def State.resetWith (c : Config) : State where
  v := Vector.replicate 16 0
  i := 0
  pc := 0x200
  stack := Vector.replicate 16 0
  sp := 0
  dt := 0
  st := 0
  mem := []
  fb := []
  phase := .idle
  faultRecord := none
  loaded := false
  samples := 0
  config := c

/-- The machine right after reset, at the default parameters (R9, R55). -/
def State.reset : State := State.resetWith defaultConfig

end Sys2Proof.Machine
end

