-- ==== Sys2Proof/Machine/Ops.lean ====
section
/-! DEFINITION. The named operations over registers, pc, stack, memory and framebuffer, and the one
operation that takes a fault. Every meaning goes through these. -/

namespace Sys2Proof.Machine

/-! ## Memory (20_memory.md) -/

/-- What an address that memory does not list reads as: its contents after reset, the font at
0x000-0x04F (glyph k at 5k) and 0x00 elsewhere (R55, R70, R225; log 9). -/
def Memory.initial (c : Config) (a : Nat) : Byte :=
  if h : a < 80 then (c.font[a / 5]'(by omega))[a % 5]'(by omega) else 0

/-- The entry for an address, if memory lists one. -/
def Memory.lookup : Memory → Nat → Option Byte
  | [], _ => none
  | (b, w) :: m, a => if b = a then some w else Memory.lookup m a

/-- The byte at location `a`. -/
def Memory.read (c : Config) (m : Memory) (a : Nat) : Byte :=
  (Memory.lookup m a).getD (Memory.initial c a)

/-- Memory with no entry for `a`. -/
def Memory.erase (m : Memory) (a : Nat) : Memory := m.filter fun e => e.1 != a

/-- Memory with an entry put in before the first higher address. -/
def Memory.insert : Memory → Nat → Byte → Memory
  | [], a, v => [(a, v)]
  | (b, w) :: m, a, v => if a < b then (a, v) :: (b, w) :: m else (b, w) :: Memory.insert m a v

/-- Store `v` at location `a`, keeping the canonical form: a byte equal to what the unlisted address
reads as is not listed. -/
def Memory.write (c : Config) (m : Memory) (a : Nat) (v : Byte) : Memory :=
  if v = Memory.initial c a then Memory.erase m a else Memory.insert (Memory.erase m a) a v

/-- The canonical form: addresses strictly rising and below 4096, no entry equal to what its address
reads as when unlisted. -/
def Memory.wf (c : Config) (m : Memory) : Bool :=
  decide (m.Pairwise fun e f => e.1 < f.1) && m.all fun e => decide (e.1 < 4096) && e.2 != Memory.initial c e.1

/-- The effective address of an access: `addr mod 4096` (R63). -/
def effAddr (addr : Nat) : Nat := addr % 4096

/-- `MemRead(addr, 1)` (R13, R63). -/
def State.memRead (s : State) (addr : Nat) : Byte := Memory.read s.config s.mem (effAddr addr)

/-- `MemWrite(addr, 1, v)` (R13, R63). -/
def State.memWrite (s : State) (addr : Nat) (v : Byte) : State :=
  { s with mem := Memory.write s.config s.mem (effAddr addr) v }

/-! ## Registers (10_state.md R20 to R29) -/

/-- `V[x]` (R13). -/
def State.readV (s : State) (x : RegIdx) : Byte := s.v[x.toNat]'(x.isLt)

/-- `V[x] <- b` (R13). -/
def State.writeV (s : State) (x : RegIdx) (b : Byte) : State :=
  { s with v := s.v.set x.toNat b x.isLt }

/-- `I <- w` (R23). -/
def State.setI (s : State) (w : Word) : State := { s with i := w }

/-- `DT <- b` (R28). -/
def State.setDt (s : State) (b : Byte) : State := { s with dt := b }

/-- `ST <- b` (R29). -/
def State.setSt (s : State) (b : Byte) : State := { s with st := b }

/-- `pc <- target mod 0x1000`: every write to pc stores a value below 0x1000 (R24; log 11). -/
def State.setPc (s : State) (target : Nat) : State := { s with pc := BitVec.ofNat 16 (target % 0x1000) }

/-- The pc advance of a cycle, `(a + 2) mod 0x1000` (40_cycle.md R122). -/
def State.advance (s : State) : State := s.setPc (s.pc.toNat + 2)

/-- `Skip()` (41_control_transfer.md R140); pc has already been advanced. -/
def State.skip (s : State) : State := s.setPc (s.pc.toNat + 2)

/-- `if b then Skip()`. -/
def State.skipIf (s : State) (b : Bool) : State := if b then s.skip else s

/-- The phase (R40). -/
def State.setPhase (s : State) (p : Phase) : State := { s with phase := p }

/-- One sampled input has been consumed (log 8). -/
def State.takeSample (s : State) : State := { s with samples := s.samples + 1 }

/-! ## The return stack (R25 to R27) -/

/-- `Push(v)`: `none` is the overflow, found before anything is written (R26). -/
def State.push (s : State) (v : Word) : Option State :=
  if h : s.sp.val < 16 then
    some { s with stack := s.stack.set s.sp.val v h, sp := ⟨s.sp.val + 1, by omega⟩ }
  else none

/-- `Pop()`: `none` is the underflow (R27). -/
def State.pop (s : State) : Option (Word × State) :=
  if h : s.sp.val = 0 then none
  else some (s.stack[s.sp.val - 1]'(by omega), { s with sp := ⟨s.sp.val - 1, by omega⟩ })

/-! ## Taking a fault (40_cycle.md R125, 60_exceptions.md R272) -/

/-- End in the halted state with a fault record; nothing else changes. -/
def State.halt (s : State) (r : FaultRecord) : State :=
  { s with phase := .halted, faultRecord := some r }

/-- `raise Fault(kind, info)` in the cycle that began in `s` and runs the word `w`: the state returns to
`s`, the phase becomes Halted and the record holds the kind, the instruction's own address, its word
and the info. THE CORE has no return from it (R275): only `reset()` leaves Halted
(`resetCommand`, Machine/HostInterface.lean). -/
def State.raise (s : State) (kind : FaultKind) (w : Word) (info : Option Nat) : State :=
  s.halt { kind := kind, pc := s.pc, word := w, info := info }

/-! ## The framebuffer (44_display.md) -/

/-- The cell (x, y) (R210). -/
def Framebuffer.cell (fb : Framebuffer) (p : Pixel) : Bool := fb.contains p

/-- Row-major order of cells. -/
def Pixel.before (p q : Pixel) : Bool := decide (p.2 < q.2) || (p.2 == q.2 && decide (p.1 < q.1))

/-- The framebuffer with a cell put in before the first later one. -/
def Framebuffer.insert : Framebuffer → Pixel → Framebuffer
  | [], p => [p]
  | q :: fb, p => if Pixel.before p q then p :: q :: fb else q :: Framebuffer.insert fb p

/-- `FB[x][y] <- FB[x][y] ^ 1` (R214). -/
def Framebuffer.flip (fb : Framebuffer) (p : Pixel) : Framebuffer :=
  if fb.cell p then fb.filter fun q => q != p else fb.insert p

/-- The canonical form: cells in row-major order without repeats, each inside FB_W x FB_H (R210). -/
def Framebuffer.wf (c : Config) (fb : Framebuffer) : Bool :=
  decide (fb.Pairwise fun p q => Pixel.before p q = true) &&
    fb.all fun p => decide (p.1 < c.fbW) && decide (p.2 < c.fbH)

/-- Draw one set sprite bit: invert its cell, and collide when the cell was 1 (R214). -/
def plot (d : Framebuffer × Bool) (p : Pixel) : Framebuffer × Bool := (d.1.flip p, d.2 || d.1.cell p)

/-- Draw set sprite bits one after the other; the result is the framebuffer and the collision. -/
def drawPixels (fb : Framebuffer) (ps : List Pixel) : Framebuffer × Bool := ps.foldl plot (fb, false)

/-- The cell of the sprite bit at row `r` and column offset `k`, drawn at (x, y) (R213). -/
def targetCell (c : Config) (x y r k : Nat) : Pixel := ((x + k) % c.fbW, (y + r) % c.fbH)

/-- The target cells of the set bits of one sprite byte, bit 7 leftmost (R212). -/
def spriteRow (c : Config) (x y r : Nat) (b : Byte) : List Pixel :=
  ((List.range 8).filter fun k => b.getLsbD (7 - k)).map (targetCell c x y r)

/-- The target cells of the set bits of the N-byte sprite at I, in the order of R215. -/
def State.spritePixels (s : State) (x y n : Nat) : List Pixel :=
  (List.range n).flatMap fun r => spriteRow s.config x y r (s.memRead (s.i.toNat + r))

/-- Replace the framebuffer. -/
def State.setFb (s : State) (fb : Framebuffer) : State := { s with fb := fb }

/-! ## Block transfers (43_memory_index.md R197, R198) -/

/-- `for i = 0 to n - 1: MemWrite(I + i, 1, V[i])`. -/
def State.storeV (s : State) (n : Nat) : State :=
  (List.range n).foldl (fun t k => t.memWrite (s.i.toNat + k) (s.readV (BitVec.ofNat 4 k))) s

/-- `for i = 0 to n - 1: V[i] <- MemRead(I + i, 1)`. -/
def State.loadV (s : State) (n : Nat) : State :=
  (List.range n).foldl (fun t k => t.writeV (BitVec.ofNat 4 k) (s.memRead (s.i.toNat + k))) s

/-! ## The timers (46_timers.md) -/

/-- One countdown, floor at zero. -/
def countDown (t : Byte) : Byte := if t = 0 then 0 else t - 1

/-- `TimerStep()` (R250). -/
def State.timerStep (s : State) : State := { s with dt := countDown s.dt, st := countDown s.st }

end Sys2Proof.Machine
end

