-- ==== Sys2Proof/Machine/Flags.lean ====
section
/-! DEFINITION. Results and flags: what 42_arithmetic.md and 44_display.md put in VF. Sums and
differences are computed on integers and stored modulo 256 (R160). -/

namespace Sys2Proof.Machine

/-- A flag as VF holds it: 1 or 0. -/
def flagByte (b : Bool) : Byte := if b then 1 else 0

/-- `(x + y) mod 256` (R162, R164). -/
def sumByte (x y : Byte) : Byte := BitVec.ofNat 8 (x.toNat + y.toNat)

/-- Carry: the sum is above 255 (R164). -/
def carryFlag (x y : Byte) : Bool := decide (x.toNat + y.toNat > 255)

/-- `(x - y) mod 256` (R165, R166). -/
def diffByte (x y : Byte) : Byte := BitVec.ofInt 8 ((x.toNat : Int) - (y.toNat : Int))

/-- NOT borrow: `x >= y` (R165, R166). -/
def noBorrowFlag (x y : Byte) : Bool := decide (x.toNat ≥ y.toNat)

/-- `v >> 1` and the bit shifted out, `v[0]` (R170). -/
def shiftedRight (v : Byte) : Byte := v >>> 1
def shiftedOutLow (v : Byte) : Bool := v.getLsbD 0

/-- `(v << 1) mod 256` and the bit shifted out, `v[7]` (R171). -/
def shiftedLeft (v : Byte) : Byte := v <<< 1
def shiftedOutHigh (v : Byte) : Bool := v.getLsbD 7

/-- Write a result into V[X] and then a flag into VF: the flag is written last, so X = F leaves VF
holding the flag (R21). -/
def State.writeResult (s : State) (x : RegIdx) (result : Byte) (flag : Bool) : State :=
  (s.writeV x result).writeV vf (flagByte flag)

/-- Write the result of a logic operation; VF is cleared only when LOGIC_CLEARS_VF (R167 to R169). -/
def State.writeLogic (s : State) (x : RegIdx) (result : Byte) : State :=
  if s.config.logicClearsVf then (s.writeV x result).writeV vf 0 else s.writeV x result

end Sys2Proof.Machine
end

