-- ==== Sys2Proof/Machine/Operands.lean ====
section
/-! DEFINITION. The operands an instruction computes from registers, fields and parameters. -/

namespace Sys2Proof.Machine

/-- The value a shift reads: V[X], or V[Y] when SHIFT_USES_VY (42_arithmetic.md R170, R171). -/
def shiftOperand (s : State) (x y : RegIdx) : Byte :=
  if s.config.shiftUsesVy then s.readV y else s.readV x

/-- The register an indexed jump adds: V0, or V[X] with X = NNN[11:8] when JUMP_USES_VX
(41_control_transfer.md R148). -/
def jumpRegister (s : State) (nnn : Addr) : RegIdx :=
  if s.config.jumpUsesVx then nnn.extractLsb' 8 4 else 0x0#4

/-- The font address FX29 puts in I; `none` is the FontRange fault (43_memory_index.md R193). -/
def fontAddress (mode : FontIndexMode) (v : Byte) : Option Word :=
  match mode with
  | .lowNibble => some (BitVec.ofNat 16 (5 * (v.toNat % 16)))
  | .full => some (BitVec.ofNat 16 (5 * v.toNat))
  | .fault => if v.toNat > 0xF then none else some (BitVec.ofNat 16 (5 * v.toNat))

/-- What `KeyIndex` answers (45_keypad.md R232). -/
inductive KeyIndex where
  /-- a logical key -/
  | key (k : Nibble)
  /-- NONE, which is never down -/
  | noKey
  /-- the KeyRange fault -/
  | outOfRange
  deriving DecidableEq, Repr

/-- `KeyIndex(v)` (R232). -/
def keyIndex (mode : KeyRangeMode) (v : Byte) : KeyIndex :=
  if v.toNat ≤ 0xF then .key (v.extractLsb' 0 4)
  else match mode with
    | .fault => .outOfRange
    | .lowNibble => .key (v.extractLsb' 0 4)
    | .notDown => .noKey

/-- `KeyDown(k)` in a snapshot of `key_down[15:0]` (R231); KeyDown(NONE) = 0 (R232). -/
def keyDown (snapshot : BitVec 16) : KeyIndex → Bool
  | .key k => snapshot.getLsbD k.toNat
  | .noKey => false
  | .outOfRange => false

/-- The decimal digits of a byte (43_memory_index.md R196). -/
def hundreds (v : Byte) : Byte := BitVec.ofNat 8 (v.toNat / 100)
def tens (v : Byte) : Byte := BitVec.ofNat 8 (v.toNat / 10 % 10)
def ones (v : Byte) : Byte := BitVec.ofNat 8 (v.toNat % 10)

/-- I after a block transfer of `n` bytes (R197, R198). -/
def indexAfterTransfer (s : State) (n : Nat) : Word :=
  if s.config.loadStoreIncrementsI then BitVec.ofNat 16 (s.i.toNat + n) else s.i

end Sys2Proof.Machine
end

