-- ==== Sys2Proof/Machine/Arith.lean ====
section
/-! DEFINITION. Register, immediate, arithmetic and bitwise instructions (42_arithmetic.md). Operands are
read before any write (00_scope.md R15). None of them can fault. -/

namespace Sys2Proof.Machine

/-- `LD Vx, nn` (R161). -/
def execLdImm (x : RegIdx) (nn : Byte) (s : State) : Host.Outcome State Fault Refusal := .next (s.advance.writeV x nn)

/-- `ADD Vx, nn` (R162): no carry flag. -/
def execAddImm (x : RegIdx) (nn : Byte) (s : State) : Host.Outcome State Fault Refusal :=
  .next (s.advance.writeV x (sumByte (s.readV x) nn))

/-- `LD Vx, Vy` (R163). -/
def execLdReg (x y : RegIdx) (s : State) : Host.Outcome State Fault Refusal := .next (s.advance.writeV x (s.readV y))

/-- `OR Vx, Vy` (R167). -/
def execOrReg (x y : RegIdx) (s : State) : Host.Outcome State Fault Refusal :=
  .next (s.advance.writeLogic x (s.readV x ||| s.readV y))

/-- `AND Vx, Vy` (R168). -/
def execAndReg (x y : RegIdx) (s : State) : Host.Outcome State Fault Refusal :=
  .next (s.advance.writeLogic x (s.readV x &&& s.readV y))

/-- `XOR Vx, Vy` (R169). -/
def execXorReg (x y : RegIdx) (s : State) : Host.Outcome State Fault Refusal :=
  .next (s.advance.writeLogic x (s.readV x ^^^ s.readV y))

/-- `ADD Vx, Vy` (R164): VF = carry. -/
def execAddReg (x y : RegIdx) (s : State) : Host.Outcome State Fault Refusal :=
  .next (s.advance.writeResult x (sumByte (s.readV x) (s.readV y)) (carryFlag (s.readV x) (s.readV y)))

/-- `SUB Vx, Vy` (R165): VF = NOT borrow. -/
def execSub (x y : RegIdx) (s : State) : Host.Outcome State Fault Refusal :=
  .next (s.advance.writeResult x (diffByte (s.readV x) (s.readV y)) (noBorrowFlag (s.readV x) (s.readV y)))

/-- `SUBN Vx, Vy` (R166): VF = NOT borrow. -/
def execSubn (x y : RegIdx) (s : State) : Host.Outcome State Fault Refusal :=
  .next (s.advance.writeResult x (diffByte (s.readV y) (s.readV x)) (noBorrowFlag (s.readV y) (s.readV x)))

/-- `SHR Vx, Vy` (R170): VF = the bit shifted out. -/
def execShr (x y : RegIdx) (s : State) : Host.Outcome State Fault Refusal :=
  .next (s.advance.writeResult x (shiftedRight (shiftOperand s x y)) (shiftedOutLow (shiftOperand s x y)))

/-- `SHL Vx, Vy` (R171): VF = the bit shifted out. -/
def execShl (x y : RegIdx) (s : State) : Host.Outcome State Fault Refusal :=
  .next (s.advance.writeResult x (shiftedLeft (shiftOperand s x y)) (shiftedOutHigh (shiftOperand s x y)))

/-- `RND Vx, nn` (R175) with the draw `r`: `V[X] <- r & NN`. -/
def randomInto (r : Byte) (x : RegIdx) (nn : Byte) (s : State) : State :=
  s.advance.takeSample.writeV x (r &&& nn)

/-- `RND Vx, nn` (R175): the draw is a free value (log 5). -/
def execRnd (x : RegIdx) (nn : Byte) (s : State) : Host.Outcome State Fault Refusal :=
  .next (randomInto (Config.randDraw s.samples) x nn s)

end Sys2Proof.Machine
end

