-- ==== Sys2Proof/Machine/Control.lean ====
section
/-! DEFINITION. The control transfer instructions (41_control_transfer.md). A meaning starts from the
state at the start of the cycle: it advances pc (R122) and then follows its rule. -/

namespace Sys2Proof.Machine

/-- `RET` (R143): `pc <- Pop()`; StackUnderflow when SP = 0. -/
def execRet (s : State) : Host.Outcome State Fault Refusal :=
  match s.advance.pop with
  | some (target, t) => .next (t.setPc target.toNat)
  | none => .next (s.raise .stackUnderflow (encode .ret) none)

/-- `JP nnn` (R141). -/
def execJp (nnn : Addr) (s : State) : Host.Outcome State Fault Refusal := .next (s.advance.setPc nnn.toNat)

/-- `CALL nnn` (R142): push the advanced pc, then jump; StackOverflow when SP = 16. -/
def execCall (nnn : Addr) (s : State) : Host.Outcome State Fault Refusal :=
  match s.advance.push s.advance.pc with
  | some t => .next (t.setPc nnn.toNat)
  | none => .next (s.raise .stackOverflow (encode (.call nnn)) none)

/-- `SE Vx, nn` (R144). -/
def execSeImm (x : RegIdx) (nn : Byte) (s : State) : Host.Outcome State Fault Refusal :=
  .next (s.advance.skipIf (s.readV x == nn))

/-- `SNE Vx, nn` (R145). -/
def execSneImm (x : RegIdx) (nn : Byte) (s : State) : Host.Outcome State Fault Refusal :=
  .next (s.advance.skipIf (s.readV x != nn))

/-- `SE Vx, Vy` (R146). -/
def execSeReg (x y : RegIdx) (s : State) : Host.Outcome State Fault Refusal :=
  .next (s.advance.skipIf (s.readV x == s.readV y))

/-- `SNE Vx, Vy` (R147). -/
def execSneReg (x y : RegIdx) (s : State) : Host.Outcome State Fault Refusal :=
  .next (s.advance.skipIf (s.readV x != s.readV y))

/-- `JP V0, nnn` (R148). -/
def execJpV0 (nnn : Addr) (s : State) : Host.Outcome State Fault Refusal :=
  .next (s.advance.setPc (nnn.toNat + (s.readV (jumpRegister s nnn)).toNat))

end Sys2Proof.Machine
end

