-- ==== Sys2Proof/Machine/Display.lean ====
section
/-! DEFINITION. The display instructions (44_display.md). -/

namespace Sys2Proof.Machine

/-- `CLS` (R211): every cell becomes 0; VF is not written. -/
def execCls (s : State) : Host.Outcome State Fault Refusal := .next (s.advance.setFb [])

/-- `DRW Vx, Vy, n` (R215): XOR the N-byte sprite at I onto the framebuffer at (V[X], V[Y]), both read
before VF is written; VF = collision, written after all pixels. N = 0 draws nothing and writes 0 (R216). -/
def execDrw (x y : RegIdx) (n : Nibble) (s : State) : Host.Outcome State Fault Refusal :=
  let d := drawPixels s.fb (s.spritePixels (s.readV x).toNat (s.readV y).toNat n.toNat)
  .next ((s.advance.setFb d.1).writeV vf (flagByte d.2))

end Sys2Proof.Machine
end

