-- ==== Sys2Proof/Machine/Index.lean ====
section
/-! DEFINITION. Index register and memory instructions (43_memory_index.md). -/

namespace Sys2Proof.Machine

/-- `LD I, nnn` (R192): `I <- zext_16(NNN)`. -/
def execLdI (nnn : Addr) (s : State) : Host.Outcome State Fault Refusal := .next (s.advance.setI (nnn.setWidth 16))

/-- `ADD I, Vx` (R194): `I <- (I + V[X]) mod 0x10000`; VF is not written. -/
def execAddIVx (x : RegIdx) (s : State) : Host.Outcome State Fault Refusal :=
  .next (s.advance.setI (BitVec.ofNat 16 (s.i.toNat + (s.readV x).toNat)))

/-- `LD F, Vx` (R193): the glyph's font address, by FONT_INDEX_MODE; FontRange only in mode `fault`. -/
def execLdFVx (x : RegIdx) (s : State) : Host.Outcome State Fault Refusal :=
  match fontAddress s.config.fontIndexMode (s.readV x) with
  | some a => .next (s.advance.setI a)
  | none => .next (s.raise .fontRange (encode (.ldFVx x)) (some (s.readV x).toNat))

/-- `LD B, Vx` (R196): the decimal digits, hundreds at I. -/
def execLdBVx (x : RegIdx) (s : State) : Host.Outcome State Fault Refusal :=
  .next (((s.advance.memWrite s.i.toNat (hundreds (s.readV x))).memWrite (s.i.toNat + 1)
    (tens (s.readV x))).memWrite (s.i.toNat + 2) (ones (s.readV x)))

/-- `LD [I], Vx` (R197): store V0..Vx, inclusive. -/
def execLdIMemVx (x : RegIdx) (s : State) : Host.Outcome State Fault Refusal :=
  .next ((s.advance.storeV (x.toNat + 1)).setI (indexAfterTransfer s (x.toNat + 1)))

/-- `LD Vx, [I]` (R198): load V0..Vx, inclusive. -/
def execLdVxIMem (x : RegIdx) (s : State) : Host.Outcome State Fault Refusal :=
  .next ((s.advance.loadV (x.toNat + 1)).setI (indexAfterTransfer s (x.toNat + 1)))

end Sys2Proof.Machine
end

