-- ==== Sys2Proof/Machine/Keypad.lean ====
section
/-! DEFINITION. The keypad instructions and the wait of FX0A (45_keypad.md). -/

namespace Sys2Proof.Machine

/-- EX9E and EXA1 (R233, R234), given the instruction's word and the snapshot of `key_down`: the key
index may fault before any write (R232); otherwise skip when the key's state is `skipWhen`. -/
def pollKey (word : Word) (skipWhen : Bool) (snapshot : BitVec 16) (x : RegIdx) (s : State) : State :=
  match keyIndex s.config.keyRangeMode (s.readV x) with
  | .outOfRange => s.raise .keyRange word (some (s.readV x).toNat)
  | k => s.advance.takeSample.skipIf (keyDown snapshot k == skipWhen)

/-- `SKP Vx` (R233): skip if the key in V[X] is down; the snapshot is a free value (log 6). -/
def execSkp (x : RegIdx) (s : State) : Host.Outcome State Fault Refusal :=
  .next (pollKey (encode (.skp x)) true (Config.keyDownSample s.samples) x s)

/-- `SKNP Vx` (R234): skip if the key in V[X] is up; the snapshot is a free value (log 6). -/
def execSknp (x : RegIdx) (s : State) : Host.Outcome State Fault Refusal :=
  .next (pollKey (encode (.sknp x)) false (Config.keyDownSample s.samples) x s)

/-- `LD Vx, K` (R235), first part: suspend in phase WaitKey(X) with pc advanced; nothing else changes
until a key event (R236). -/
def execLdVxK (x : RegIdx) (s : State) : Host.Outcome State Fault Refusal := .next (s.advance.setPhase (.waitKey x))

/-- `LD Vx, K`, second part: what `key_event(k)` does in phase WaitKey(x) (R237). -/
def keyArrives (x : RegIdx) (k : Nibble) (s : State) : State :=
  ((s.writeV x (k.setWidth 8)).setPhase .running).timerStep

end Sys2Proof.Machine
end

