-- ==== Sys2Proof/Machine/Timers.lean ====
section
/-! DEFINITION. The timer instructions (46_timers.md). The timer step of the same cycle follows them
(`finishCycle`, Machine/Cycle.lean). -/

namespace Sys2Proof.Machine

/-- `LD Vx, DT` (R252). -/
def execLdVxDt (x : RegIdx) (s : State) : Host.Outcome State Fault Refusal := .next (s.advance.writeV x s.dt)

/-- `LD DT, Vx` (R253). -/
def execLdDtVx (x : RegIdx) (s : State) : Host.Outcome State Fault Refusal := .next (s.advance.setDt (s.readV x))

/-- `LD ST, Vx` (R254). -/
def execLdStVx (x : RegIdx) (s : State) : Host.Outcome State Fault Refusal := .next (s.advance.setSt (s.readV x))

end Sys2Proof.Machine
end

