-- ==== Sys2Proof/Machine/Cycle.lean ====
section
/-! DEFINITION. The execution cycle (40_cycle.md): fetch, decode, execute and the timer step; the wait
of FX0A (45_keypad.md R236, R237). -/

namespace Sys2Proof.Machine

/-- The two bytes at pc and pc + 1, each address taken mod 4096 (R121). -/
def fetchBytes (s : State) : List Byte := [s.memRead s.pc.toNat, s.memRead (s.pc.toNat + 1)]

/-- The word at pc, big-endian (R64, R121). -/
def fetchWord (s : State) : Word := wordOfBytes (s.memRead s.pc.toNat) (s.memRead (s.pc.toNat + 1))

/-- The end of a cycle (R120, R125, R126): a completed cycle runs the timer step; a cycle that faulted
(Halted) or that FX0A suspended (WaitKey) does not. -/
def finishCycle (t : State) : State :=
  match t.phase with
  | .running => t.timerStep
  | .idle => t
  | .waitKey _ => t
  | .halted => t

/-- ExecuteCycle() of R120, from a state in phase Running: fetch, decode, execute, timer step. A word
that is no instruction raises DecodeError with pc not advanced (R123). -/
def runCycle (s : State) : Host.Outcome State Fault Refusal :=
  match decode (fetchBytes s) with
  | .error _ => .next (s.raise .decodeError (fetchWord s) none)
  | .ok (i, _) =>
    match exec i s with
    | .next t => .next (finishCycle t)
    | .fault r => .fault r
    | .refused r => .refused r

/-- The command `execute_cycle()` in each phase (R127, R128, R129, R306). -/
def executeCycle (s : State) : Host.Outcome State Fault Refusal :=
  match s.phase with
  | .idle => if s.loaded then runCycle (s.setPhase .running) else .refused .cycleBeforeLoad
  | .running => runCycle s
  | .waitKey _ => .refused .commandInWait
  | .halted => .refused .cycleInHalted

/-- One observation of the input `key_event` in phase WaitKey(x): an event completes the suspended cycle
(R237), no event leaves everything as it was, timers included (R236). -/
def waitForKey (x : RegIdx) (event : Option Nibble) (s : State) : State :=
  match event with
  | some k => (keyArrives x k s).takeSample
  | none => s.takeSample

end Sys2Proof.Machine
end

