-- ==== Sys2Proof/Machine/Step.lean ====
section
/-! DEFINITION. One step of THE CORE: `execute_cycle()` up to its return or its suspension; in phase
WaitKey, one observation of the key_event input, a free value (log 7). -/

namespace Sys2Proof.Machine

def step (s : State) : Host.Outcome State Fault Refusal :=
  match s.phase with
  | .waitKey x => .next (waitForKey x (Config.keyEventSample s.samples) s)
  | .idle => executeCycle s
  | .running => executeCycle s
  | .halted => executeCycle s

/-- `s` with a table word stored at pc, big-endian, in a phase in which the very next step fetches and
runs it: Idle with an image loaded, or Running (R127). It stands for a load from outside (log 3). -/
def State.withFetchWord (s : State) (nbits w : Nat) : State :=
  let word := tableWord nbits w
  let t := (s.memWrite s.pc.toNat (word.extractLsb' 8 8)).memWrite (s.pc.toNat + 1) (word.extractLsb' 0 8)
  match s.phase with
  | .idle => { t with loaded := true }
  | .running => t
  | .waitKey _ => t.setPhase .running
  | .halted => t.setPhase .running

end Sys2Proof.Machine
end

