-- ==== Sys2Proof/Machine/HostInterface.lean ====
section
/-! DEFINITION. The host's side of THE CORE: its commands (10_state.md R45, 70_reset_and_hazards.md R300 to
R306), the key event (R47), and the outputs (R49, R50, 46_timers.md R255). -/

namespace Sys2Proof.Machine

/-- `Reset()` (R300): every piece of state at its reset value, for the machine's own parameters. The
count of sampled inputs is the model's and goes on (log 8). -/
def resetState (s : State) : State := { State.resetWith s.config with samples := s.samples }

/-- The command `reset()`: accepted in Idle, Running and Halted; in WaitKey the host cannot issue it
(R300; log 15). -/
def resetCommand (s : State) : Host.Outcome State Fault Refusal :=
  match s.phase with
  | .idle => .next (resetState s)
  | .running => .next (resetState s)
  | .halted => .next (resetState s)
  | .waitKey _ => .refused .commandInWait

/-- `for j: Mem[addr + j] <- bytes[j]`. -/
def copyBytes : List Byte → Nat → State → State
  | [], _, s => s
  | b :: bs, addr, s => copyBytes bs (addr + 1) (s.memWrite addr b)

/-- The command `load_program(bytes)` (R302, R303, R306): only in Idle with loaded = 0; an image of more
than 4096 - 0x200 bytes halts with LoadError and writes no byte. -/
def loadProgram (bytes : List Byte) (s : State) : Host.Outcome State Fault Refusal :=
  if s.phase = .idle ∧ s.loaded = false then
    if bytes.length > 4096 - 0x200 then
      .next (s.halt { kind := .loadError, pc := 0, word := 0, info := some bytes.length })
    else .next { copyBytes bytes 0x200 s with loaded := true }
  else .refused .loadOutOfOrder

/-- The input `key_event(k)` (R47): consumed in WaitKey(x) (R237), ignored in any other phase (R238). -/
def keyEvent (k : Nibble) (s : State) : State :=
  match s.phase with
  | .waitKey x => keyArrives x k s
  | .idle => s
  | .running => s
  | .halted => s

/-- What the host can do to THE CORE (R45, R47). -/
inductive HostAction where
  | reset
  | loadProgram (bytes : List Byte)
  | executeCycle
  | keyEvent (k : Nibble)
  deriving DecidableEq, Repr

/-- The effect of a host action. -/
def hostAction (a : HostAction) (s : State) : Host.Outcome State Fault Refusal :=
  match a with
  | .reset => resetCommand s
  | .loadProgram bytes => loadProgram bytes s
  | .executeCycle => executeCycle s
  | .keyEvent k => .next (keyEvent k s)

/-! ## A run under the host, and its refusal mark (R306; log 2) -/

/-- THE CORE and what the run that uses it has come to. The mark is the model's, not THE CORE's: it is `none` until
a command is refused and then names the first refusal. -/
structure Run where
  machine : State
  mark : Option Refusal
  deriving DecidableEq, Repr

/-- The run before the host's first command. DESIGN CHOICE (log 18): the spec gives THE CORE no state before the
first `reset()`, which R304 has the host call first; the model starts in the state that `reset()` leaves. -/
def Run.start : Run := { machine := State.reset, mark := none }

/-- One host action. A refused one changes no state of THE CORE and sets the mark; nothing clears the mark, not
even `reset()` (R306; log 17). -/
def Run.act (r : Run) (a : HostAction) : Run :=
  match hostAction a r.machine with
  | .next t => { r with machine := t }
  | .fault f => nomatch f
  | .refused why => { r with mark := r.mark <|> some why }

/-- Host actions one after the other. -/
def Run.acts (r : Run) (actions : List HostAction) : Run := actions.foldl Run.act r

/-- The code of a fault kind on the status output (R270). -/
def faultCode : FaultKind → Nat
  | .loadError => 1
  | .decodeError => 2
  | .stackOverflow => 3
  | .stackUnderflow => 4
  | .keyRange => 5
  | .fontRange => 6

/-- What the host may observe between commands, and nothing else (R49, R50, R52). -/
structure Outputs where
  phase : Phase
  faultRecord : Option FaultRecord
  soundActive : Bool
  cells : Framebuffer
  deriving DecidableEq, Repr

/-- The outputs: the framebuffer, the phase, the fault record and `sound_active = (ST ≠ 0)` (R255). -/
def State.outputs (s : State) : Outputs where
  phase := s.phase
  faultRecord := s.faultRecord
  soundActive := s.st != 0
  cells := s.fb

/-- The overlay write port (R51): it changes a display layer the host owns and never FB, so on THE CORE
it is the identity (R218). -/
def overlayWrite (_ : Pixel) (_ : Bool) (s : State) : State := s

/-- The host's table of physical symbols, recorded in 45_keypad.md R230 for the reader (it lies outside
THE CORE, R6): logical code 0x0 first. -/
def physicalKeys : List Char :=
  ['x', '1', '2', '3', 'q', 'w', 'e', 'a', 's', 'd', 'z', 'c', '4', 'r', 'f', 'v']

/-- The logical key of a physical symbol; `none` is an input-mapping miss, which is not an error and
gives no key event (R230, R238). -/
def logicalKey (symbol : Char) : Option Nibble :=
  (physicalKeys.findIdx? fun c => c == symbol).map fun k => BitVec.ofNat 4 k

end Sys2Proof.Machine
end

