-- ==== Sys2Proof/Safety.lean ====
section
/-! DEFINITION. The terms claims use: the legal states (the invariant of every step), what an instruction leaves
unchanged, the state after reset, and what a safe run is. -/

namespace Sys2Proof.Machine

/-! ## Legal states -/

/-- A fault record fits the halted state that holds it (10_state.md R41, 60_exceptions.md R270, R272): a
LoadError has pc and word 0 and nothing is loaded; any other kind names the instruction at pc. -/
def recordFits (s : State) (r : FaultRecord) : Bool :=
  match r.kind with
  | .loadError => r.pc == 0 && r.word == 0 && !s.loaded
  | .decodeError | .stackOverflow | .stackUnderflow | .keyRange | .fontRange =>
    r.pc == s.pc && r.word == fetchWord s && s.loaded

/-- The phase, the fault record and `loaded` fit together (R40, R41, R42). -/
def phaseFits (s : State) : Bool :=
  match s.phase with
  | .idle => s.faultRecord.isNone
  | .running => s.faultRecord.isNone && s.loaded
  | .waitKey _ => s.faultRecord.isNone && s.loaded
  | .halted => match s.faultRecord with
    | none => false
    | some r => recordFits s r

/-- The legal states: memory and framebuffer in canonical form, pc and every stack slot below 0x1000
(R24, R26), the control state consistent. -/
abbrev State.Inv (s : State) : Prop :=
  s.config.Wf ∧ Memory.wf s.config s.mem = true ∧ Framebuffer.wf s.config s.fb = true ∧
    s.pc.toNat < 0x1000 ∧ (∀ j : Fin 16, s.stack[j].toNat < 0x1000) ∧ phaseFits s = true

/-- `execute_cycle()` is accepted: Running, or Idle with an image loaded (R120, R127). -/
abbrev State.Ready (s : State) : Prop := s.phase = .running ∨ (s.phase = .idle ∧ s.loaded = true)

/-! ## What stays the same -/

/-- Every register V[r] outside `rs` is unchanged. -/
abbrev SameRegistersBut (rs : List RegIdx) (s t : State) : Prop := ∀ r, r ∉ rs → t.readV r = s.readV r

/-- Every byte of memory reads as before. -/
abbrev SameMemory (s t : State) : Prop := ∀ a, t.memRead a = s.memRead a

/-- Every byte outside the `n` bytes stored at `base`, `base + 1`, ... (each mod 4096, R63) reads as before. -/
abbrev SameMemoryOutside (base n : Nat) (s t : State) : Prop :=
  ∀ a, (∀ k < n, a % 4096 ≠ (base + k) % 4096) → t.memRead a = s.memRead a

abbrev SameStack (s t : State) : Prop := t.stack = s.stack ∧ t.sp = s.sp

abbrev SameTimers (s t : State) : Prop := t.dt = s.dt ∧ t.st = s.st

/-- The phase, the fault record, `loaded` and the parameters are unchanged. -/
abbrev SameControl (s t : State) : Prop :=
  t.phase = s.phase ∧ t.faultRecord = s.faultRecord ∧ t.loaded = s.loaded ∧ t.config = s.config

/-- Everything but V, pc and the count of samples is unchanged. -/
abbrev SameBesidesV (s t : State) : Prop :=
  t.i = s.i ∧ SameStack s t ∧ SameTimers s t ∧ SameMemory s t ∧ t.fb = s.fb ∧ SameControl s t

/-- Everything but V, I, pc and the count of samples is unchanged. -/
abbrev SameBesidesVI (s t : State) : Prop :=
  SameStack s t ∧ SameTimers s t ∧ SameMemory s t ∧ t.fb = s.fb ∧ SameControl s t

/-- The halted state a fault ends in (R125): the state before the cycle, with the record written. -/
abbrev State.haltedWith (s : State) (k : FaultKind) (w : Word) (info : Option Nat) : State :=
  { s with phase := .halted, faultRecord := some ⟨k, s.pc, w, info⟩ }

/-! ## Reset (R55) -/

/-- The table of R55, read through the model's reads, for parameters `c`. -/
abbrev AfterReset (c : Config) (t : State) : Prop :=
  (∀ r, t.readV r = 0) ∧ t.i = 0 ∧ t.pc = 0x200 ∧ t.sp = 0 ∧ (∀ j : Fin 16, t.stack[j] = 0) ∧
    t.dt = 0 ∧ t.st = 0 ∧
    (∀ g j : Nat, ∀ hg : g < 16, ∀ hj : j < 5, t.memRead (5 * g + j) = (c.font[g]'hg)[j]'hj) ∧
    (∀ a, 0x50 ≤ a → a < 0x1000 → t.memRead a = 0) ∧ (∀ p, t.fb.cell p = false) ∧
    t.phase = .idle ∧ t.faultRecord = none ∧ t.loaded = false ∧ t.config = c

/-! ## Runs -/

/-- `k` steps lead from `s` to `t`. -/
def StepsTo : Nat → State → State → Prop
  | 0, s, t => s = t
  | k + 1, s, t => ∃ u, step s = .next u ∧ StepsTo k u t

/-- A run of steps is safe when no state it reaches is Halted (R307) and none has a step that is refused: where the
next command is one R306 gives no meaning, nothing is claimed. -/
abbrev Safe (s : State) : Prop :=
  ∀ k t, StepsTo k s t → t.phase ≠ .halted ∧ ∀ why, step t ≠ .refused why

/-- A claim about the machine of a run under the host: none holds once a command has been refused (R306). -/
abbrev Run.Claim (P : State → Prop) (r : Run) : Prop := r.mark = none ∧ P r.machine

end Sys2Proof.Machine
end

