-- ==== Sys2Proof/Certificates/Slice0/Obligations.lean ====
section
/-! DEFINITION. The statements for the provers. "The spec's decision Dn" and "general knowledge" name what the
spec itself marks as its own choice (92_eei_decisions.md) or as not in its source (93_implementation_defined.md);
a statement that rests on one has basis "derived". "Log n" is notes/assumptions/n.md. -/

open Sys2Proof Sys2Proof.Machine

/-! ## Encoding -/

/-- Words written out from the patterns of 30_encoding.md R95 decode to the instructions they stand for. The
patterns are the spec's general knowledge (G2), but for 00E0 and 1NNN. -/
def Obligations.WrittenWordsDecode : Prop :=
  decodeWord 0x00E0 = .ok .cls ∧ decodeWord 0x1200 = .ok (.jp 0x200) ∧ decodeWord 0x610A = .ok (.ldImm 1 0x0A) ∧
  decodeWord 0x8124 = .ok (.addReg 1 2) ∧ decodeWord 0xD125 = .ok (.drw 1 2 5) ∧ decodeWord 0xE19E = .ok (.skp 1) ∧
  decodeWord 0xF30A = .ok (.ldVxK 3) ∧ decodeWord 0xFF55 = .ok (.ldIMemVx 0xF) ∧
  decodeWord 0x0123 = .error (.family0 0x0123) ∧ decodeWord 0x5121 = .error (.compareReg 0x5121)

/-- Decoding the two bytes of an encoded instruction gives it back, with every operand at every value, and
leaves the rest of the bytes. -/
def Obligations.DecodeInvertsEncode : Prop :=
  ∀ (i : Instr) (rest : List Byte), decode (bytesOfWord (encode i) ++ rest) = .ok (i, rest)

/-- A word that decodes to an instruction is the word the instruction encodes to: no bit of a legal word is
ignored (R98, the spec's decision D18). -/
def Obligations.EncodeInvertsDecode : Prop :=
  ∀ (w : Word) (i : Instr), decodeWord w = .ok i → encode i = w

/-- The decoder accepts exactly the words a row of the opcode table matches (R95, R97), and gives an
instruction of a matching row. The patterns are general knowledge (G2). -/
def Obligations.DecoderAcceptsExactlyTheTable : Prop :=
  (∀ w : Word, (∃ i, decodeWord w = .ok i) ↔ legalWord w = true) ∧
  ∀ (w : Word) (i : Instr), decodeWord w = .ok i →
    ∃ r ∈ opcodeTable, r.matchesWord w = true ∧ r.mnemonic = i.mnemonic

/-- No word matches two rows of the opcode table (R95). -/
def Obligations.OpcodeRowsNeverOverlap : Prop :=
  ∀ (w : Word) (r r' : OpcodeRow), r ∈ opcodeTable → r' ∈ opcodeTable → r.matchesWord w = true →
    r'.matchesWord w = true → r = r'

/-! ## Reset, load and the order of commands -/

/-- What reset leaves (R55), with the defaults of R9 and the 80 font bytes of R225 written out. The font bytes are
general knowledge (G11, D25); the other defaults are the spec's decisions D9 to D13, D16 and D17; I and the stack
slots at 0 are its decision D27. -/
def Obligations.ResetLeavesTheSpecifiedState : Prop :=
  AfterReset defaultConfig State.reset ∧
  defaultConfig.fbW = 64 ∧ defaultConfig.fbH = 32 ∧ defaultConfig.shiftUsesVy = false ∧
  defaultConfig.logicClearsVf = false ∧ defaultConfig.loadStoreIncrementsI = false ∧
  defaultConfig.jumpUsesVx = false ∧ defaultConfig.fontIndexMode = .lowNibble ∧
  defaultConfig.keyRangeMode = .fault ∧
  defaultConfig.font.toList.map Vector.toList =
    [[0xF0, 0x90, 0x90, 0x90, 0xF0], [0x20, 0x60, 0x20, 0x20, 0x70], [0xF0, 0x10, 0xF0, 0x80, 0xF0],
     [0xF0, 0x10, 0xF0, 0x10, 0xF0], [0x90, 0x90, 0xF0, 0x10, 0x10], [0xF0, 0x80, 0xF0, 0x10, 0xF0],
     [0xF0, 0x80, 0xF0, 0x90, 0xF0], [0xF0, 0x10, 0x20, 0x40, 0x40], [0xF0, 0x90, 0xF0, 0x90, 0xF0],
     [0xF0, 0x90, 0xF0, 0x10, 0xF0], [0xF0, 0x90, 0xF0, 0x90, 0x90], [0xE0, 0x90, 0xE0, 0x90, 0xE0],
     [0xF0, 0x80, 0x80, 0x80, 0xF0], [0xE0, 0x90, 0x90, 0x90, 0xE0], [0xF0, 0x80, 0xF0, 0x80, 0xF0],
     [0xF0, 0x80, 0xF0, 0x80, 0x80]]

/-- `reset()` is accepted in every phase but WaitKey and leaves the state of R55, and a second reset leaves the
same state as one (R300, the spec's decision D27; R301). In WaitKey it cannot be issued (log 15). -/
def Obligations.ResetCommandIsIdempotent : Prop :=
  ∀ s : State, ((∀ x, s.phase ≠ .waitKey x) →
    ∃ t, resetCommand s = .next t ∧ AfterReset s.config t ∧ resetCommand t = .next t) ∧
    ∀ x, s.phase = .waitKey x → resetCommand s = .refused .commandInWait

/-- `load_program` of an image that fits copies it to 0x200, marks it loaded and changes nothing else (R302, the
spec's decision D28). -/
def Obligations.LoadPlacesTheImage : Prop :=
  ∀ (s : State) (bytes : List Byte), s.phase = .idle → s.loaded = false → bytes.length ≤ 3584 →
    ∃ t, loadProgram bytes s = .next t ∧
      (∀ (k : Nat) (h : k < bytes.length), t.memRead (0x200 + k) = bytes[k]) ∧
      SameMemoryOutside 0x200 bytes.length s t ∧ t.loaded = true ∧ t = { s with mem := t.mem, loaded := true }

/-- `load_program` of an image of more than 3584 bytes writes no byte and ends Halted with the LoadError record
(R303, the spec's decision D28). -/
def Obligations.LoadOfTooLongAnImageHalts : Prop :=
  ∀ (s : State) (bytes : List Byte), s.phase = .idle → s.loaded = false → 3584 < bytes.length →
    loadProgram bytes s =
      .next { s with phase := .halted, faultRecord := some ⟨.loadError, 0, 0, some bytes.length⟩ }

/-- The commands R306 refuses are refused, each by name, at the command and at the step (the spec's decision
D34; log 2). -/
def Obligations.CommandsOutOfOrderAreRefused : Prop :=
  ∀ s : State,
    (∀ bytes, s.phase ≠ .idle ∨ s.loaded = true → loadProgram bytes s = .refused .loadOutOfOrder) ∧
    (s.phase = .idle → s.loaded = false →
      executeCycle s = .refused .cycleBeforeLoad ∧ step s = .refused .cycleBeforeLoad) ∧
    (s.phase = .halted → executeCycle s = .refused .cycleInHalted ∧ step s = .refused .cycleInHalted)

/-- A refused host action changes no state of THE CORE and marks the run; an accepted one is its effect and leaves
the mark as it was; and once marked, a run stays marked whatever the host does, so that no claim about it holds
(R306, the spec's decision D34). That `reset()` does not clear the mark is the model's choice (log 17). -/
def Obligations.RefusalMarksTheRunForGood : Prop :=
  (∀ (r : Run) (a : HostAction) (why : Refusal), hostAction a r.machine = .refused why →
    (r.act a).machine = r.machine ∧ (r.act a).mark ≠ none) ∧
  (∀ (r : Run) (a : HostAction) (t : State), hostAction a r.machine = .next t →
    (r.act a).machine = t ∧ (r.act a).mark = r.mark) ∧
  ∀ (r : Run) (actions : List HostAction), r.mark ≠ none →
    (r.acts actions).mark ≠ none ∧ ∀ P : State → Prop, ¬ (r.acts actions).Claim P

/-- Halted is final: no host action but `reset()` answers a changed state, and `reset()` leaves it (R275, the
spec's decision D20). -/
def Obligations.OnlyResetLeavesHalted : Prop :=
  ∀ s : State, s.phase = .halted →
    (∀ (a : HostAction) (t : State), a ≠ .reset → hostAction a s = .next t → t = s) ∧
    ∃ t, hostAction .reset s = .next t ∧ t.phase = .idle

/-! ## The cycle -/

/-- A step in which the two bytes at pc (the second at pc + 1, both mod 4096) decode to `i` runs exec of `i` in
phase Running, and then the timer step if and only if the cycle completed (R120, R121, R126). -/
def Obligations.StepRunsTheDecodedInstruction : Prop :=
  ∀ (s : State) (i : Instr), s.Ready →
    decodeWord (s.memRead s.pc.toNat ++ s.memRead (s.pc.toNat + 1)) = .ok i →
    ∃ t, exec i { s with phase := .running } = .next t ∧
      (t.phase = .running → step s = .next { t with
        dt := (if t.dt = 0 then 0 else t.dt - 1), st := (if t.st = 0 then 0 else t.st - 1) }) ∧
      (t.phase ≠ .running → step s = .next t)

/-- The word `withFetchWord` places is the word the next step fetches, and that step runs its instruction
(log 3). -/
def Obligations.PlacedWordIsFetchedAndRun : Prop :=
  ∀ (s : State) (i : Instr), s.phase = .idle ∨ s.phase = .running ∨ s.phase = .halted →
    fetchWord (s.withFetchWord 16 (encode i).toNat) = encode i ∧
    (s.withFetchWord 16 (encode i).toNat).Ready ∧
    ∃ t, exec i { s.withFetchWord 16 (encode i).toNat with phase := .running } = .next t ∧
      step (s.withFetchWord 16 (encode i).toNat) = .next (finishCycle t)

/-- A fetched word that is no instruction raises DecodeError: Halted, pc not advanced, the record holds pc and
the word, and nothing else changes (R123). -/
def Obligations.UndecodableWordHalts : Prop :=
  ∀ (s : State) (e : Reject), s.Ready →
    decodeWord (s.memRead s.pc.toNat ++ s.memRead (s.pc.toNat + 1)) = .error e →
    step s = .next (s.haltedWith .decodeError (s.memRead s.pc.toNat ++ s.memRead (s.pc.toNat + 1)) none)

/-- A cycle that faults is undone: whatever step ends in Halted, the state is the state before it, but for the
phase and a record that holds the address and the word of the faulting instruction (R125, R272, the spec's
decision D19). -/
def Obligations.FaultingCycleIsUndone : Prop :=
  ∀ s t : State, step s = .next t → t.phase = .halted →
    ∃ kind info, t = s.haltedWith kind (s.memRead s.pc.toNat ++ s.memRead (s.pc.toNat + 1)) info ∧
      kind ≠ .loadError

/-- Every instruction answers a next state, and an execution ends in Halted exactly under the conditions of the
five faulting instructions (R124, derived by the spec; log 1). -/
def Obligations.OnlyFiveInstructionsFault : Prop :=
  ∀ (i : Instr) (s : State), s.phase = .running → ∃ t, exec i s = .next t ∧
    (t.phase = .halted ↔
      ((∃ nnn, i = .call nnn) ∧ s.sp = 16) ∨ (i = .ret ∧ s.sp = 0) ∨
      (∃ x, (i = .skp x ∨ i = .sknp x) ∧ (s.readV x).toNat > 0xF ∧ s.config.keyRangeMode = .fault) ∨
      (∃ x, i = .ldFVx x ∧ (s.readV x).toNat > 0xF ∧ s.config.fontIndexMode = .fault))

/-- In a completed cycle each timer counts down by one, floor zero, from what the instruction left in it: V[X]
for FX15 in DT and for FX18 in ST, otherwise its value at the start of the cycle (R250, R126). A cycle that a
key event completes runs its timer step then. -/
def Obligations.TimersStepOncePerCompletedCycle : Prop :=
  (∀ (s t : State) (i : Instr), s.Ready →
    decodeWord (s.memRead s.pc.toNat ++ s.memRead (s.pc.toNat + 1)) = .ok i →
    step s = .next t → t.phase = .running →
    (∀ x, i = .ldDtVx x → t.dt.toNat = (s.readV x).toNat - 1 ∧ t.st.toNat = s.st.toNat - 1) ∧
    (∀ x, i = .ldStVx x → t.st.toNat = (s.readV x).toNat - 1 ∧ t.dt.toNat = s.dt.toNat - 1) ∧
    ((∀ x, i ≠ .ldDtVx x ∧ i ≠ .ldStVx x) →
      t.dt.toNat = s.dt.toNat - 1 ∧ t.st.toNat = s.st.toNat - 1)) ∧
  ∀ (s : State) (x : RegIdx) (k : Nibble), s.phase = .waitKey x →
    (keyEvent k s).dt.toNat = s.dt.toNat - 1 ∧ (keyEvent k s).st.toNat = s.st.toNat - 1

/-- The timers do not step in WaitKey, Idle or Halted, or in a cycle that faults (R251): a step or a host action
that does not end in Running, and a key event that ends no wait, leave both timers alone, `reset()` apart. -/
def Obligations.TimersStepOnlyWithCompletedCycles : Prop :=
  (∀ s t : State, step s = .next t → t.phase ≠ .running → SameTimers s t) ∧
  ∀ (s t : State) (a : HostAction), a ≠ .reset → hostAction a s = .next t →
    (t.phase ≠ .running ∨ (∃ k, a = .keyEvent k) ∧ ∀ x, s.phase ≠ .waitKey x) → SameTimers s t

/-- In WaitKey(x), `key_event(k)` completes the suspended cycle: V[x] takes the code, the phase is Running, one
timer step runs, and nothing else changes (R237); in any other phase it is ignored (R238). What ends the wait
is the spec's decision D21. -/
def Obligations.KeyEventCompletesTheWait : Prop :=
  ∀ (s : State) (k : Nibble),
    (∀ x, s.phase = .waitKey x →
      ((keyEvent k s).readV x).toNat = k.toNat ∧ SameRegistersBut [x] s (keyEvent k s) ∧
      (keyEvent k s).dt.toNat = s.dt.toNat - 1 ∧ (keyEvent k s).st.toNat = s.st.toNat - 1 ∧
      keyEvent k s = { s with
        v := (keyEvent k s).v, phase := .running, dt := (keyEvent k s).dt, st := (keyEvent k s).st }) ∧
    ((∀ x, s.phase ≠ .waitKey x) → keyEvent k s = s)

/-- In WaitKey(x) a step executes no instruction (R236): it observes the input `key_event`, a free value (log 7). No
event, and nothing changes but the model's count of samples; an event k, and the step is the wake-up
`key_event(k)` of R237, the count apart. `execute_cycle()` cannot be issued (R129); that the model refuses it by
the name commandInWait is log 15. -/
def Obligations.WaitChangesNothingUntilAKeyEvent : Prop :=
  ∀ (s : State) (x : RegIdx), s.phase = .waitKey x →
    executeCycle s = .refused .commandInWait ∧
    step s = .next (match Config.keyEventSample s.samples with
      | none => { s with samples := s.samples + 1 }
      | some k => { keyEvent k s with samples := s.samples + 1 })

/-! ## Invariants and whole-machine rules -/

/-- The state after reset is legal. -/
def Obligations.ResetIsLegal : Prop := State.reset.Inv

/-- Every step keeps a legal state legal: memory and framebuffer canonical, pc and the stack slots below 0x1000
(R24), phase, fault record and `loaded` consistent (R40, R41, R42). -/
def Obligations.StepKeepsLegal : Prop := ∀ s t : State, s.Inv → step s = .next t → t.Inv

/-- Every host action keeps a legal state legal. -/
def Obligations.HostActionsKeepLegal : Prop :=
  ∀ (s t : State) (a : HostAction), s.Inv → hostAction a s = .next t → t.Inv

/-- No step changes `loaded` (R42: only reset and load do) or the parameters (R10), and the count of samples
never falls (log 8). -/
def Obligations.StepKeepsLoadMarkAndParameters : Prop :=
  ∀ s t : State, step s = .next t → t.loaded = s.loaded ∧ t.config = s.config ∧ s.samples ≤ t.samples

/-- No instruction other than 00E0 and DXYN changes the framebuffer, and the output the host reads after the
step is the framebuffer the step left (R219). -/
def Obligations.OnlyClsAndDrwChangeTheFramebuffer : Prop :=
  ∀ s t : State, step s = .next t →
    t.outputs.cells = t.fb ∧
    (t.fb = s.fb ∨ s.Ready ∧ (decodeWord (fetchWord s) = .ok .cls ∨ ∃ x y n, decodeWord (fetchWord s) = .ok (.drw x y n)))

/-- Which registers an instruction may write, as 10_state.md R22 lists them. -/
def mayWriteV (c : Config) : Instr → RegIdx → Prop
  | .ldImm x _, r | .addImm x _, r | .ldReg x _, r | .rnd x _, r | .ldVxDt x, r => r = x
  | .orReg x _, r | .andReg x _, r | .xorReg x _, r => r = x ∨ c.logicClearsVf = true ∧ r = vf
  | .addReg x _, r | .sub x _, r | .subn x _, r | .shr x _, r | .shl x _, r => r = x ∨ r = vf
  | .drw _ _ _, r => r = vf
  | .ldVxIMem x, r => r.toNat ≤ x.toNat
  | .cls, _ | .ret, _ | .jp _, _ | .call _, _ | .seImm _ _, _ | .sneImm _ _, _ | .seReg _ _, _ | .sneReg _ _, _
  | .ldI _, _ | .jpV0 _, _ | .skp _, _ | .sknp _, _ | .ldVxK _, _ | .ldDtVx _, _ | .ldStVx _, _ | .addIVx _, _
  | .ldFVx _, _ | .ldBVx _, _ | .ldIMemVx _, _ => False

/-- An instruction writes no register but those R22 lists for it (FX0A writes V[X] at the key event, not when it
suspends, R235). R22 is derived by the spec. -/
def Obligations.InstructionsWriteOnlyTheirRegisters : Prop :=
  ∀ (i : Instr) (s t : State), exec i s = .next t → ∀ r, ¬ mayWriteV s.config i r → t.readV r = s.readV r

/-- Every other register is written by its own instructions only: I by ANNN, FX1E, FX29, and by FX55 and FX65
only when LOADSTORE_INCREMENTS_I; the stack by 2NNN and SP by 2NNN and 00EE; DT by FX15 and ST by FX18 (the
timer step of the cycle apart); the phase only by FX0A, which suspends, and by a fault; the fault record only by a
fault; `loaded` and the parameters by none (R23, R25, R28, R29, R40, R124). -/
def Obligations.InstructionsWriteOnlyTheirSpecialRegisters : Prop :=
  ∀ (i : Instr) (s t : State), exec i s = .next t →
    ((∀ a x, i ≠ .ldI a ∧ i ≠ .addIVx x ∧ i ≠ .ldFVx x ∧
      (s.config.loadStoreIncrementsI = true → i ≠ .ldIMemVx x ∧ i ≠ .ldVxIMem x)) → t.i = s.i) ∧
    ((∀ a, i ≠ .call a) → t.stack = s.stack) ∧ ((∀ a, i ≠ .call a ∧ i ≠ .ret) → t.sp = s.sp) ∧
    ((∀ x, i ≠ .ldDtVx x) → t.dt = s.dt) ∧ ((∀ x, i ≠ .ldStVx x) → t.st = s.st) ∧
    (t.phase = s.phase ∨ (∃ x, i = .ldVxK x ∧ t.phase = .waitKey x) ∨ t.phase = .halted) ∧
    (t.faultRecord = s.faultRecord ∨ t.phase = .halted) ∧ t.loaded = s.loaded ∧ t.config = s.config

/-- Only FX33 and FX55 write memory, FX33 the three bytes at I, I+1, I+2 and FX55 the X+1 bytes from I, each
address mod 4096; every other byte, and all of memory under any other instruction, reads as before (R62,
derived by the spec). -/
def Obligations.InstructionsStoreOnlyTheirBytes : Prop :=
  ∀ (i : Instr) (s t : State), exec i s = .next t →
    (∀ x, i = .ldBVx x → SameMemoryOutside s.i.toNat 3 s t) ∧
    (∀ x, i = .ldIMemVx x → SameMemoryOutside s.i.toNat (x.toNat + 1) s t) ∧
    ((∀ x, i ≠ .ldBVx x ∧ i ≠ .ldIMemVx x) → SameMemory s t)

/-- An instruction that is no jump, call, return or skip leaves pc at (a + 2) mod 0x1000 unless it faults, and a
faulting one leaves pc at a (R122, R125, the spec's decisions D4 and D19). -/
def Obligations.OtherInstructionsAdvanceByTwo : Prop :=
  ∀ (i : Instr) (s t : State), s.phase = .running → exec i s = .next t →
    (t.phase = .halted → t.pc = s.pc) ∧
    (t.phase ≠ .halted →
      (∀ a x y n, i ≠ .jp a ∧ i ≠ .call a ∧ i ≠ .jpV0 a ∧ i ≠ .ret ∧ i ≠ .seImm x n ∧ i ≠ .sneImm x n ∧
        i ≠ .seReg x y ∧ i ≠ .sneReg x y ∧ i ≠ .skp x ∧ i ≠ .sknp x) →
      t.pc.toNat = (s.pc.toNat + 2) % 0x1000)

/-! ## Control transfer (41_control_transfer.md) -/

/-- `JP nnn` (R141): pc is NNN and nothing else changes; 1NNN is its encoding. -/
def Obligations.JumpGoesToItsAddress : Prop :=
  ∀ (nnn : Addr), decodeWord (0x1#4 ++ nnn) = .ok (.jp nnn) ∧
    ∀ s : State, ∃ t, exec (.jp nnn) s = .next t ∧ t.pc.toNat = nnn.toNat ∧
      SameRegistersBut [] s t ∧ SameBesidesV s t

/-- A jump to itself is an infinite loop that never faults (a corner case of R141): from a state that accepts
`execute_cycle()` and whose two bytes at pc are `JP` of pc, no number of steps reaches Halted or a refused
command, and every state reached still has that pc (R307: the way a program stops normally). -/
def Obligations.JumpToItselfIsSafe : Prop :=
  ∀ (s : State) (nnn : Addr), s.Ready → s.pc.toNat = nnn.toNat →
    decodeWord (s.memRead s.pc.toNat ++ s.memRead (s.pc.toNat + 1)) = .ok (.jp nnn) →
    Safe s ∧ (∀ k t, StepsTo k s t → t.pc = s.pc) ∧ ∀ k, ∃ t, StepsTo k s t

/-- `CALL nnn` (R142, with Push of R26): below depth 16 it pushes (a + 2) mod 0x1000 and jumps; at depth 16 it
ends in StackOverflow with nothing written. -/
def Obligations.CallPushesAndJumps : Prop :=
  ∀ (nnn : Addr), decodeWord (0x2#4 ++ nnn) = .ok (.call nnn) ∧
    ∀ s : State,
      (∀ h : s.sp.val < 16, ∃ t, exec (.call nnn) s = .next t ∧ t.pc.toNat = nnn.toNat ∧
        t.sp.val = s.sp.val + 1 ∧ (t.stack[s.sp.val]'h).toNat = (s.pc.toNat + 2) % 0x1000 ∧
        (∀ j : Fin 16, j.val ≠ s.sp.val → t.stack[j] = s.stack[j]) ∧
        SameRegistersBut [] s t ∧ t.i = s.i ∧ SameTimers s t ∧ SameMemory s t ∧ t.fb = s.fb ∧ SameControl s t) ∧
      (s.sp.val = 16 → exec (.call nnn) s = .next (s.haltedWith .stackOverflow (0x2#4 ++ nnn) none))

/-- `RET` (R143, with Pop of R27): with a non-empty stack pc is the newest entry (an entry is below 0x1000 in
every legal state) and SP falls by one; with an empty stack it ends in StackUnderflow with nothing written. -/
def Obligations.ReturnPopsTheNewestEntry : Prop :=
  decodeWord 0x00EE = .ok .ret ∧
  ∀ s : State,
    (∀ h : s.sp.val ≠ 0, ∃ t, exec .ret s = .next t ∧
      (∀ target : Word, s.stack[s.sp.val - 1]'(by omega) = target → target.toNat < 0x1000 → t.pc = target) ∧
      t.sp.val = s.sp.val - 1 ∧ t.stack = s.stack ∧
      SameRegistersBut [] s t ∧ t.i = s.i ∧ SameTimers s t ∧ SameMemory s t ∧ t.fb = s.fb ∧ SameControl s t) ∧
    (s.sp.val = 0 → exec .ret s = .next (s.haltedWith .stackUnderflow 0x00EE none))

/-- The four register skips (R144 to R147): a taken skip leaves pc at (a + 4) mod 0x1000, an untaken one at
(a + 2) mod 0x1000 (Skip() is R140, the spec's decision D4), and nothing else changes. -/
def Obligations.SkipsCompareAndSkip : Prop :=
  ∀ (x y : RegIdx) (nn : Byte) (s : State),
    (decodeWord (0x3#4 ++ x ++ nn) = .ok (.seImm x nn) ∧
      ∃ t, exec (.seImm x nn) s = .next t ∧ SameRegistersBut [] s t ∧ SameBesidesV s t ∧
        t.pc.toNat = (s.pc.toNat + (if s.readV x = nn then 4 else 2)) % 0x1000) ∧
    (decodeWord (0x4#4 ++ x ++ nn) = .ok (.sneImm x nn) ∧
      ∃ t, exec (.sneImm x nn) s = .next t ∧ SameRegistersBut [] s t ∧ SameBesidesV s t ∧
        t.pc.toNat = (s.pc.toNat + (if s.readV x ≠ nn then 4 else 2)) % 0x1000) ∧
    (decodeWord (0x5#4 ++ x ++ y ++ 0x0#4) = .ok (.seReg x y) ∧
      ∃ t, exec (.seReg x y) s = .next t ∧ SameRegistersBut [] s t ∧ SameBesidesV s t ∧
        t.pc.toNat = (s.pc.toNat + (if s.readV x = s.readV y then 4 else 2)) % 0x1000) ∧
    (decodeWord (0x9#4 ++ x ++ y ++ 0x0#4) = .ok (.sneReg x y) ∧
      ∃ t, exec (.sneReg x y) s = .next t ∧ SameRegistersBut [] s t ∧ SameBesidesV s t ∧
        t.pc.toNat = (s.pc.toNat + (if s.readV x ≠ s.readV y then 4 else 2)) % 0x1000)

/-- `JP V0, nnn` (R148, the spec's decision D12): pc is (NNN + V0) mod 0x1000, or NNN plus the register named by
NNN[11:8] when JUMP_USES_VX; BNNN is its encoding (G2). -/
def Obligations.IndexedJumpAddsARegister : Prop :=
  ∀ (x : RegIdx) (nn : Byte), decodeWord (0xB#4 ++ x ++ nn) = .ok (.jpV0 (x ++ nn)) ∧
    ∀ s : State, ∃ t, exec (.jpV0 (x ++ nn)) s = .next t ∧
      t.pc.toNat = (x.toNat * 256 + nn.toNat +
        (if s.config.jumpUsesVx then s.readV x else s.readV 0).toNat) % 0x1000 ∧
      SameRegistersBut [] s t ∧ SameBesidesV s t

/-! ## Arithmetic (42_arithmetic.md) -/

/-- `LD Vx, nn` (R161): V[X] is NN; 6XNN is its encoding. -/
def Obligations.LoadImmediate : Prop :=
  ∀ (x : RegIdx) (nn : Byte), decodeWord (0x6#4 ++ x ++ nn) = .ok (.ldImm x nn) ∧
    ∀ s : State, ∃ t, exec (.ldImm x nn) s = .next t ∧ t.readV x = nn ∧ SameRegistersBut [x] s t ∧
      SameBesidesV s t

/-- `ADD Vx, nn` (R162): V[X] is (V[X] + NN) mod 256, and VF is no carry: it is unchanged unless X = F. -/
def Obligations.AddImmediateWithoutCarry : Prop :=
  ∀ (x : RegIdx) (nn : Byte), decodeWord (0x7#4 ++ x ++ nn) = .ok (.addImm x nn) ∧
    ∀ s : State, ∃ t, exec (.addImm x nn) s = .next t ∧
      (t.readV x).toNat = ((s.readV x).toNat + nn.toNat) % 256 ∧ SameRegistersBut [x] s t ∧ SameBesidesV s t

/-- `LD Vx, Vy` (R163, general knowledge G4); 8XY0 is its encoding (G2). -/
def Obligations.CopyRegister : Prop :=
  ∀ (x y : RegIdx), decodeWord (0x8#4 ++ x ++ y ++ 0x0#4) = .ok (.ldReg x y) ∧
    ∀ s : State, ∃ t, exec (.ldReg x y) s = .next t ∧ t.readV x = s.readV y ∧
      SameRegistersBut [x] s t ∧ SameBesidesV s t

/-- `ADD Vx, Vy` (R164): the sum mod 256, and VF = 1 exactly when the sum is above 255; X = F leaves the carry
(the spec's decision D7); 8XY4 is its encoding (G2). -/
def Obligations.AddRegistersWithCarry : Prop :=
  ∀ (x y : RegIdx) (s : State), decodeWord (0x8#4 ++ x ++ y ++ 0x4#4) = .ok (.addReg x y) ∧
    ∃ t, exec (.addReg x y) s = .next t ∧
    (x ≠ vf → (t.readV x).toNat = ((s.readV x).toNat + (s.readV y).toNat) % 256) ∧
    (t.readV vf).toNat = (if (s.readV x).toNat + (s.readV y).toNat > 255 then 1 else 0) ∧
    SameRegistersBut [x, vf] s t ∧ SameBesidesV s t

/-- `SUB` and `SUBN` (R165, R166): the difference mod 256, and VF = 1 exactly when there is no borrow, equality
included (the spec's decisions D7, D8; general knowledge G7); 8XY5 and 8XY7 are their encodings (G2). -/
def Obligations.SubtractWithNotBorrow : Prop :=
  ∀ (x y : RegIdx) (s : State),
    decodeWord (0x8#4 ++ x ++ y ++ 0x5#4) = .ok (.sub x y) ∧
    decodeWord (0x8#4 ++ x ++ y ++ 0x7#4) = .ok (.subn x y) ∧
    (∃ t, exec (.sub x y) s = .next t ∧
      (x ≠ vf → ((t.readV x).toNat : Int) = ((s.readV x).toNat - (s.readV y).toNat : Int) % 256) ∧
      (t.readV vf).toNat = (if (s.readV x).toNat ≥ (s.readV y).toNat then 1 else 0) ∧
      SameRegistersBut [x, vf] s t ∧ SameBesidesV s t) ∧
    (∃ t, exec (.subn x y) s = .next t ∧
      (x ≠ vf → ((t.readV x).toNat : Int) = ((s.readV y).toNat - (s.readV x).toNat : Int) % 256) ∧
      (t.readV vf).toNat = (if (s.readV y).toNat ≥ (s.readV x).toNat then 1 else 0) ∧
      SameRegistersBut [x, vf] s t ∧ SameBesidesV s t)

/-- `OR`, `AND`, `XOR` (R167 to R169): bit by bit, with VF untouched, or cleared last when LOGIC_CLEARS_VF (the
spec's decision D10); 8XY1, 8XY2, 8XY3 are their encodings (G2). -/
def Obligations.LogicIsBitwise : Prop :=
  ∀ (x y : RegIdx) (s : State),
    let clears := s.config.logicClearsVf = true
    let frame := fun t : State => (clears → t.readV vf = 0 ∧ SameRegistersBut [x, vf] s t) ∧
      (¬ clears → SameRegistersBut [x] s t) ∧ SameBesidesV s t
    decodeWord (0x8#4 ++ x ++ y ++ 0x1#4) = .ok (.orReg x y) ∧
    decodeWord (0x8#4 ++ x ++ y ++ 0x2#4) = .ok (.andReg x y) ∧
    decodeWord (0x8#4 ++ x ++ y ++ 0x3#4) = .ok (.xorReg x y) ∧
    (∃ t, exec (.orReg x y) s = .next t ∧ frame t ∧ (¬ clears ∨ x ≠ vf →
      ∀ k < 8, (t.readV x).getLsbD k = ((s.readV x).getLsbD k || (s.readV y).getLsbD k))) ∧
    (∃ t, exec (.andReg x y) s = .next t ∧ frame t ∧ (¬ clears ∨ x ≠ vf →
      ∀ k < 8, (t.readV x).getLsbD k = ((s.readV x).getLsbD k && (s.readV y).getLsbD k))) ∧
    (∃ t, exec (.xorReg x y) s = .next t ∧ frame t ∧ (¬ clears ∨ x ≠ vf →
      ∀ k < 8, (t.readV x).getLsbD k = ((s.readV x).getLsbD k ^^ (s.readV y).getLsbD k)))

/-- `SHR` and `SHL` (R170, R171): one place, VF = the bit shifted out; the operand is V[X], or V[Y] when
SHIFT_USES_VY (the spec's decisions D7, D9); 8XY6 and 8XYE are their encodings (G2). -/
def Obligations.ShiftsByOne : Prop :=
  ∀ (x y : RegIdx) (s : State),
    let v := (if s.config.shiftUsesVy then s.readV y else s.readV x).toNat
    decodeWord (0x8#4 ++ x ++ y ++ 0x6#4) = .ok (.shr x y) ∧
    decodeWord (0x8#4 ++ x ++ y ++ 0xE#4) = .ok (.shl x y) ∧
    (∃ t, exec (.shr x y) s = .next t ∧ (x ≠ vf → (t.readV x).toNat = v / 2) ∧
      (t.readV vf).toNat = v % 2 ∧ SameRegistersBut [x, vf] s t ∧ SameBesidesV s t) ∧
    (∃ t, exec (.shl x y) s = .next t ∧ (x ≠ vf → (t.readV x).toNat = v * 2 % 256) ∧
      (t.readV vf).toNat = v / 128 ∧ SameRegistersBut [x, vf] s t ∧ SameBesidesV s t)

/-- `RND Vx, nn` (R175): V[X] is the draw masked by NN, one draw per execution; the draw is a free value (the
spec's decision D23; log 5); CXNN is its encoding (G2). -/
def Obligations.RandomIsMasked : Prop :=
  ∀ (x : RegIdx) (nn : Byte) (s : State), decodeWord (0xC#4 ++ x ++ nn) = .ok (.rnd x nn) ∧
    ∃ t, exec (.rnd x nn) s = .next t ∧
    (∀ k < 8, (t.readV x).getLsbD k = ((Config.randDraw s.samples).getLsbD k && nn.getLsbD k)) ∧
    t.samples = s.samples + 1 ∧ SameRegistersBut [x] s t ∧ SameBesidesV s t

/-! ## Index and memory (43_memory_index.md) -/

/-- `LD I, nnn` (R192): I is NNN, zero-extended; ANNN is its encoding. -/
def Obligations.LoadIndex : Prop :=
  ∀ (nnn : Addr), decodeWord (0xA#4 ++ nnn) = .ok (.ldI nnn) ∧
    ∀ s : State, ∃ t, exec (.ldI nnn) s = .next t ∧ t.i.toNat = nnn.toNat ∧ SameRegistersBut [] s t ∧
      SameBesidesVI s t

/-- `ADD I, Vx` (R194): I is (I + V[X]) mod 0x10000, kept in 16 bits, and VF is not written (the spec's decision
D6); FX1E is its encoding (G2). -/
def Obligations.AddToIndex : Prop :=
  ∀ (x : RegIdx) (s : State), decodeWord (0xF#4 ++ x ++ 0x1E#8) = .ok (.addIVx x) ∧
    ∃ t, exec (.addIVx x) s = .next t ∧
    t.i.toNat = (s.i.toNat + (s.readV x).toNat) % 0x10000 ∧ SameRegistersBut [] s t ∧ SameBesidesVI s t

/-- `LD F, Vx` (R193, the spec's decision D13): five times the low nibble, five times the register, or, in mode
`fault` above 0xF, FontRange with nothing written; FX29 is its encoding (G2). -/
def Obligations.IndexOfAGlyph : Prop :=
  ∀ (x : RegIdx) (s : State),
    decodeWord (0xF#4 ++ x ++ 0x29#8) = .ok (.ldFVx x) ∧
    (s.config.fontIndexMode = .fault ∧ (s.readV x).toNat > 0xF →
      exec (.ldFVx x) s = .next (s.haltedWith .fontRange (0xF#4 ++ x ++ 0x29#8) (some (s.readV x).toNat))) ∧
    (s.config.fontIndexMode ≠ .fault ∨ (s.readV x).toNat ≤ 0xF →
      ∃ t, exec (.ldFVx x) s = .next t ∧ SameRegistersBut [] s t ∧ SameBesidesVI s t ∧
        t.i.toNat = 5 * (if s.config.fontIndexMode = .lowNibble then (s.readV x).toNat % 16
          else (s.readV x).toNat))

/-- `LD B, Vx` (R196): hundreds at I, tens at I + 1, ones at I + 2, addresses mod 4096, and no other byte changes
(the digit order is general knowledge G9, decision D14; FX33 is its encoding, G2). -/
def Obligations.DecimalDigitsAreStored : Prop :=
  ∀ (x : RegIdx) (s : State), decodeWord (0xF#4 ++ x ++ 0x33#8) = .ok (.ldBVx x) ∧
    ∃ t, exec (.ldBVx x) s = .next t ∧
    (t.memRead s.i.toNat).toNat = (s.readV x).toNat / 100 ∧
    (t.memRead (s.i.toNat + 1)).toNat = (s.readV x).toNat / 10 % 10 ∧
    (t.memRead (s.i.toNat + 2)).toNat = (s.readV x).toNat % 10 ∧
    SameMemoryOutside s.i.toNat 3 s t ∧ SameRegistersBut [] s t ∧ t.i = s.i ∧ SameStack s t ∧
    SameTimers s t ∧ t.fb = s.fb ∧ SameControl s t

/-- `LD [I], Vx` (R197): V0..Vx at I..I+X, addresses mod 4096, no other byte; I unchanged unless
LOADSTORE_INCREMENTS_I (the spec's decision D11; that Vx is included is general knowledge G10; FX55 is its encoding, G2). -/
def Obligations.RegistersAreStored : Prop :=
  ∀ (x : RegIdx) (s : State), decodeWord (0xF#4 ++ x ++ 0x55#8) = .ok (.ldIMemVx x) ∧
    ∃ t, exec (.ldIMemVx x) s = .next t ∧
    (∀ r : RegIdx, r.toNat ≤ x.toNat → t.memRead (s.i.toNat + r.toNat) = s.readV r) ∧
    SameMemoryOutside s.i.toNat (x.toNat + 1) s t ∧ SameRegistersBut [] s t ∧
    t.i.toNat = (if s.config.loadStoreIncrementsI then (s.i.toNat + x.toNat + 1) % 0x10000 else s.i.toNat) ∧
    SameStack s t ∧ SameTimers s t ∧ t.fb = s.fb ∧ SameControl s t

/-- `LD Vx, [I]` (R198): V0..Vx from I..I+X, addresses mod 4096; the other registers and memory unchanged; I
unchanged unless LOADSTORE_INCREMENTS_I (the spec's decision D11; FX65 is its encoding, G2). -/
def Obligations.RegistersAreLoaded : Prop :=
  ∀ (x : RegIdx) (s : State), decodeWord (0xF#4 ++ x ++ 0x65#8) = .ok (.ldVxIMem x) ∧
    ∃ t, exec (.ldVxIMem x) s = .next t ∧
    (∀ r : RegIdx, t.readV r = if r.toNat ≤ x.toNat then s.memRead (s.i.toNat + r.toNat) else s.readV r) ∧
    t.i.toNat = (if s.config.loadStoreIncrementsI then (s.i.toNat + x.toNat + 1) % 0x10000 else s.i.toNat) ∧
    SameBesidesVI s t

/-! ## Display (44_display.md) -/

/-- `CLS` (R211): every cell is 0 and nothing but pc changes otherwise, VF included; 00E0 is its encoding. -/
def Obligations.ClearScreenClearsEveryCell : Prop :=
  decodeWord 0x00E0 = .ok .cls ∧
  ∀ s : State, ∃ t, exec .cls s = .next t ∧ (∀ p, t.fb.cell p = false) ∧ SameRegistersBut [] s t ∧
    t.i = s.i ∧ SameStack s t ∧ SameTimers s t ∧ SameMemory s t ∧ SameControl s t

/-- `DRW Vx, Vy, n` on a framebuffer of any size (R212 to R217, decisions D15, D16): the set sprite bits are drawn one
after the other, row by row and in a row from bit 7 on, each at the cell ((V[X] + k) mod FB_W, (V[Y] + r) mod FB_H);
a cell is inverted once for each, and VF is 1 exactly when one of them finds its cell set. A framebuffer has at
least one cell (log 12). DXYN is its encoding (G2). -/
def Obligations.DrawXorsBitAfterBit : Prop :=
  ∀ (x y : RegIdx) (n : Nibble) (s : State), decodeWord (0xD#4 ++ x ++ y ++ n) = .ok (.drw x y n) ∧
    (s.config.Wf → ∃ t, exec (.drw x y n) s = .next t ∧
      (let ps : List Pixel := (List.range n.toNat).flatMap fun r =>
        ((List.range 8).filter fun k => (s.memRead (s.i.toNat + r)).getLsbD (7 - k)).map fun k =>
          (((s.readV x).toNat + k) % s.config.fbW, ((s.readV y).toNat + r) % s.config.fbH)
       let collides := ∃ j, ∃ h : j < ps.length, (s.fb.cell ps[j] ^^ decide ((ps.take j).count ps[j] % 2 = 1)) = true
       (∀ p, t.fb.cell p = (s.fb.cell p ^^ decide (ps.count p % 2 = 1))) ∧
       (collides → t.readV vf = 1) ∧ (¬ collides → t.readV vf = 0)) ∧
      SameRegistersBut [vf] s t ∧ t.i = s.i ∧ SameStack s t ∧ SameTimers s t ∧ SameMemory s t ∧ SameControl s t)

/-- `DRW Vx, Vy, n` on a framebuffer of at least 8 x 15 cells, as the default is: the cell of sprite row r and
column k is ((V[X] + k) mod FB_W, (V[Y] + r) mod FB_H), bit 7 leftmost; exactly the target cells of set bits
are inverted, and VF is 1 exactly when one of them was set (R212 to R217; decisions D15, D16; N = 0 draws
nothing). -/
def Obligations.DrawInvertsExactlyTheSprite : Prop :=
  ∀ (x y : RegIdx) (n : Nibble) (s : State), 8 ≤ s.config.fbW → 15 ≤ s.config.fbH →
    ∃ t, exec (.drw x y n) s = .next t ∧
      (let target := fun p : Pixel => ∃ r < n.toNat, ∃ k < 8,
        (s.memRead (s.i.toNat + r)).getLsbD (7 - k) = true ∧
        p = (((s.readV x).toNat + k) % s.config.fbW, ((s.readV y).toNat + r) % s.config.fbH)
       (∀ p, target p → t.fb.cell p = !s.fb.cell p) ∧ (∀ p, ¬ target p → t.fb.cell p = s.fb.cell p) ∧
       ((∃ p, target p ∧ s.fb.cell p = true) → t.readV vf = 1) ∧
       (¬ (∃ p, target p ∧ s.fb.cell p = true) → t.readV vf = 0)) ∧
      SameRegistersBut [vf] s t

/-- Drawing the same sprite twice in a row at the same place restores the framebuffer, and on a framebuffer of
at least 8 x 15 cells the second draw's VF is 1 exactly when some set bit landed on a cell that was unset
before the first (R220, derived by the spec; 90_conflicts.md C2). Neither coordinate register is VF, which the
first draw writes. -/
def Obligations.DrawingTwiceRestores : Prop :=
  ∀ (x y : RegIdx) (n : Nibble) (s : State), x ≠ vf → y ≠ vf →
    ∃ t u, exec (.drw x y n) s = .next t ∧ exec (.drw x y n) t = .next u ∧
      (∀ p, u.fb.cell p = s.fb.cell p) ∧
      (8 ≤ s.config.fbW → 15 ≤ s.config.fbH →
        (u.readV vf = 1 ↔
          ∃ r < n.toNat, ∃ k < 8, (s.memRead (s.i.toNat + r)).getLsbD (7 - k) = true ∧
            s.fb.cell (((s.readV x).toNat + k) % s.config.fbW, ((s.readV y).toNat + r) % s.config.fbH) = false))

/-! ## Keypad and timers (45_keypad.md, 46_timers.md) -/

/-- `SKP` and `SKNP` (R233, R234, with KeyIndex of R232, the spec's decision D17): above 0xF in mode `fault` they
end in KeyRange with nothing written; otherwise they take one snapshot of `key_down` (a free value, log 6) and
skip when the key is down, or up. In mode `notDown` a value above 0xF is never down. EX9E and EXA1 are their encodings (G2). -/
def Obligations.KeyPollsSkip : Prop :=
  ∀ (x : RegIdx) (s : State),
    let outside := (s.readV x).toNat > 0xF
    let down := (if outside ∧ s.config.keyRangeMode = .notDown then false
      else (Config.keyDownSample s.samples).getLsbD ((s.readV x).toNat % 16))
    decodeWord (0xE#4 ++ x ++ 0x9E#8) = .ok (.skp x) ∧ decodeWord (0xE#4 ++ x ++ 0xA1#8) = .ok (.sknp x) ∧
    (outside ∧ s.config.keyRangeMode = .fault →
      exec (.skp x) s = .next (s.haltedWith .keyRange (0xE#4 ++ x ++ 0x9E#8) (some (s.readV x).toNat)) ∧
      exec (.sknp x) s = .next (s.haltedWith .keyRange (0xE#4 ++ x ++ 0xA1#8) (some (s.readV x).toNat))) ∧
    (¬ (outside ∧ s.config.keyRangeMode = .fault) →
      (∃ t, exec (.skp x) s = .next t ∧ t.pc.toNat = (s.pc.toNat + (if down then 4 else 2)) % 0x1000 ∧
        t.samples = s.samples + 1 ∧ SameRegistersBut [] s t ∧ SameBesidesV s t) ∧
      (∃ t, exec (.sknp x) s = .next t ∧ t.pc.toNat = (s.pc.toNat + (if down then 2 else 4)) % 0x1000 ∧
        t.samples = s.samples + 1 ∧ SameRegistersBut [] s t ∧ SameBesidesV s t))

/-- `LD Vx, K` (R235, decision D21): the execution suspends in phase WaitKey(X) with pc advanced, the timers and
everything else unchanged; the next key event, whatever the key, puts its code in V[X], runs the one timer step
of the cycle and leaves the other registers, pc and memory alone (R237). FX0A is its encoding (G2). -/
def Obligations.KeyWaitSuspendsAndCompletes : Prop :=
  ∀ (x : RegIdx) (s : State), decodeWord (0xF#4 ++ x ++ 0x0A#8) = .ok (.ldVxK x) ∧
    ∃ t, exec (.ldVxK x) s = .next t ∧ t.phase = .waitKey x ∧
    t.pc.toNat = (s.pc.toNat + 2) % 0x1000 ∧ t = { s with pc := t.pc, phase := .waitKey x } ∧
    ∀ k : Nibble, (keyEvent k t).phase = .running ∧ ((keyEvent k t).readV x).toNat = k.toNat ∧
      SameRegistersBut [x] s (keyEvent k t) ∧ (keyEvent k t).pc = t.pc ∧
      (keyEvent k t).dt.toNat = s.dt.toNat - 1 ∧ (keyEvent k t).st.toNat = s.st.toNat - 1 ∧
      SameMemory s (keyEvent k t) ∧ (keyEvent k t).fb = s.fb ∧ (keyEvent k t).i = s.i ∧ SameStack s (keyEvent k t)

/-- FX07, FX15, FX18 (R252 to R254): V[X] <- DT, DT <- V[X], ST <- V[X]; after the timer step of the same cycle
the timer written holds V[X] - 1, floor 0, and the one read has counted down from the value read. -/
def Obligations.TimerInstructions : Prop :=
  ∀ (x : RegIdx),
    (decodeWord (0xF#4 ++ x ++ 0x07#8) = .ok (.ldVxDt x) ∧ ∀ s : State, ∃ t, exec (.ldVxDt x) s = .next t ∧
      t.readV x = s.dt ∧ SameRegistersBut [x] s t ∧ SameBesidesV s t ∧
      (t.phase = .running → (finishCycle t).dt.toNat = s.dt.toNat - 1)) ∧
    (decodeWord (0xF#4 ++ x ++ 0x15#8) = .ok (.ldDtVx x) ∧ ∀ s : State, ∃ t, exec (.ldDtVx x) s = .next t ∧
      t.dt = s.readV x ∧ t.st = s.st ∧ SameRegistersBut [] s t ∧ t.i = s.i ∧ SameStack s t ∧ SameMemory s t ∧
      t.fb = s.fb ∧ SameControl s t ∧ (t.phase = .running → (finishCycle t).dt.toNat = (s.readV x).toNat - 1)) ∧
    (decodeWord (0xF#4 ++ x ++ 0x18#8) = .ok (.ldStVx x) ∧ ∀ s : State, ∃ t, exec (.ldStVx x) s = .next t ∧
      t.st = s.readV x ∧ t.dt = s.dt ∧ SameRegistersBut [] s t ∧ t.i = s.i ∧ SameStack s t ∧ SameMemory s t ∧
      t.fb = s.fb ∧ SameControl s t ∧ (t.phase = .running → (finishCycle t).st.toNat = (s.readV x).toNat - 1))
end

