-- ==== Sys2Proof/Laws/Arith.lean ====
section
/-! SUPPORT. The computed values of 42_arithmetic.md and 43_memory_index.md as numbers. -/

namespace Sys2Proof.Machine

@[simp] theorem sumByte_toNat (x y : Byte) : (sumByte x y).toNat = (x.toNat + y.toNat) % 256 := by
  simp [sumByte]

theorem diffByte_eq (x y : Byte) : diffByte x y = x - y := by
  have h1 := x.isLt
  have h2 := y.isLt
  apply BitVec.eq_of_toNat_eq
  simp [diffByte, BitVec.toNat_sub]
  omega

theorem diffByte_toNat (x y : Byte) : (diffByte x y).toNat = (x.toNat + 256 - y.toNat) % 256 := by
  have h2 := y.isLt
  rw [diffByte_eq, BitVec.toNat_sub]; congr 1; omega

@[simp] theorem shiftedRight_toNat (v : Byte) : (shiftedRight v).toNat = v.toNat / 2 := by
  simp [shiftedRight, Nat.shiftRight_eq_div_pow]

@[simp] theorem shiftedLeft_toNat (v : Byte) : (shiftedLeft v).toNat = v.toNat * 2 % 256 := by
  simp [shiftedLeft, Nat.shiftLeft_eq]

theorem shiftedOutLow_eq (v : Byte) : shiftedOutLow v = decide (v.toNat % 2 = 1) := by
  rw [shiftedOutLow, BitVec.getLsbD, Nat.testBit_zero]

theorem shiftedOutHigh_eq (v : Byte) : shiftedOutHigh v = decide (v.toNat ≥ 128) := by
  have h := v.isLt
  rw [shiftedOutHigh, BitVec.getLsbD, Nat.testBit_eq_decide_div_mod_eq]
  exact decide_eq_decide.mpr (by omega)

@[simp] theorem hundreds_toNat (v : Byte) : (hundreds v).toNat = v.toNat / 100 := by
  have h := v.isLt
  simp [hundreds]; omega

@[simp] theorem tens_toNat (v : Byte) : (tens v).toNat = v.toNat / 10 % 10 := by
  simp [tens]; omega

@[simp] theorem ones_toNat (v : Byte) : (ones v).toNat = v.toNat % 10 := by
  simp [ones]; omega

/-- The address of BNNN as its register nibble and its low byte (R148). -/
theorem addr_append_toNat (x : RegIdx) (nn : Byte) : (x ++ nn : Addr).toNat = x.toNat * 256 + nn.toNat := by
  have h := Nat.two_pow_add_eq_or_of_lt nn.isLt x.toNat
  refine (BitVec.toNat_append x nn).trans ?_
  rw [Nat.shiftLeft_eq, Nat.mul_comm, ← h]

theorem addr_append_high (x : RegIdx) (nn : Byte) : (x ++ nn : Addr).extractLsb' 8 4 = x := by
  apply BitVec.eq_of_toNat_eq
  have := nn.isLt
  have := x.isLt
  rw [BitVec.extractLsb'_toNat, addr_append_toNat, Nat.shiftRight_eq_div_pow]; omega

end Sys2Proof.Machine
end

