-- ==== Sys2Proof/Laws/Decode.lean ====
section
/-! SUPPORT. The fields of a laid-out word (30_encoding.md R91, R94): each layout gives its operands back, and
a word is the layout of its fields. -/

namespace Sys2Proof

/-! ### The bits of a layout -/

theorem getLsbD_layoutNNN (op : Nibble) (a : Addr) (i : Nat) : (layoutNNN op a).getLsbD i =
    if i < 12 then a.getLsbD i else op.getLsbD (i - 12) := BitVec.getLsbD_append

theorem getLsbD_layoutXNN (op : Nibble) (x : RegIdx) (nn : Byte) (i : Nat) :
    (layoutXNN op x nn).getLsbD i =
      if i < 8 then nn.getLsbD i else if i < 12 then x.getLsbD (i - 8) else op.getLsbD (i - 12) := by
  refine (BitVec.getLsbD_append (x := op ++ x)).trans ?_
  by_cases h : i < 8
  · simp [h]
  · rw [if_neg h, if_neg h, BitVec.getLsbD_append]
    by_cases h' : i < 12
    · rw [if_pos (by omega), if_pos h']
    · rw [if_neg (by omega), if_neg h', show i - 8 - 4 = i - 12 by omega]

theorem getLsbD_layoutXYN (op : Nibble) (x y : RegIdx) (n : Nibble) (i : Nat) :
    (layoutXYN op x y n).getLsbD i =
      if i < 4 then n.getLsbD i else if i < 8 then y.getLsbD (i - 4)
      else if i < 12 then x.getLsbD (i - 8) else op.getLsbD (i - 12) := by
  refine (BitVec.getLsbD_append (x := op ++ x ++ y)).trans ?_
  by_cases h : i < 4
  · simp [h]
  · rw [if_neg h, if_neg h]
    refine (BitVec.getLsbD_append (x := op ++ x)).trans ?_
    by_cases h' : i < 8
    · rw [if_pos (by omega), if_pos h']
    · rw [if_neg (by omega), if_neg h', BitVec.getLsbD_append]
      by_cases h'' : i < 12
      · rw [if_pos (by omega), if_pos h'', show i - 4 - 4 = i - 8 by omega]
      · rw [if_neg (by omega), if_neg h'', show i - 4 - 4 - 4 = i - 12 by omega]

/-! ### The fields of a layout -/

@[simp] theorem opField_layoutNNN (op : Nibble) (a : Addr) : opField (layoutNNN op a) = op := by
  apply BitVec.eq_of_getLsbD_eq; intro i hi
  simp [opField, getLsbD_layoutNNN, hi]

@[simp] theorem nnnField_layoutNNN (op : Nibble) (a : Addr) : nnnField (layoutNNN op a) = a := by
  apply BitVec.eq_of_getLsbD_eq; intro i hi
  simp [nnnField, getLsbD_layoutNNN, hi]

@[simp] theorem opField_layoutXNN (op : Nibble) (x : RegIdx) (nn : Byte) :
    opField (layoutXNN op x nn) = op := by
  apply BitVec.eq_of_getLsbD_eq; intro i hi
  simp [opField, getLsbD_layoutXNN, hi]; omega

@[simp] theorem xField_layoutXNN (op : Nibble) (x : RegIdx) (nn : Byte) :
    xField (layoutXNN op x nn) = x := by
  apply BitVec.eq_of_getLsbD_eq; intro i hi
  simp [xField, getLsbD_layoutXNN, hi]; omega

@[simp] theorem nnField_layoutXNN (op : Nibble) (x : RegIdx) (nn : Byte) :
    nnField (layoutXNN op x nn) = nn := by
  apply BitVec.eq_of_getLsbD_eq; intro i hi
  simp [nnField, getLsbD_layoutXNN, hi]

@[simp] theorem opField_layoutXYN (op : Nibble) (x y : RegIdx) (n : Nibble) :
    opField (layoutXYN op x y n) = op := by
  apply BitVec.eq_of_getLsbD_eq; intro i hi
  have h1 : ¬ 12 + i < 4 := by omega
  have h2 : ¬ 12 + i < 8 := by omega
  have h3 : ¬ 12 + i < 12 := by omega
  simp [opField, getLsbD_layoutXYN, hi, h1, h2, h3]

@[simp] theorem xField_layoutXYN (op : Nibble) (x y : RegIdx) (n : Nibble) :
    xField (layoutXYN op x y n) = x := by
  apply BitVec.eq_of_getLsbD_eq; intro i hi
  have h1 : ¬ 8 + i < 8 := by omega
  have h2 : 8 + i < 12 := by omega
  have h3 : ¬ 8 + i < 4 := by omega
  simp [xField, getLsbD_layoutXYN, hi, h1, h2, h3]

@[simp] theorem yField_layoutXYN (op : Nibble) (x y : RegIdx) (n : Nibble) :
    yField (layoutXYN op x y n) = y := by
  apply BitVec.eq_of_getLsbD_eq; intro i hi
  have h1 : 4 + i < 8 := by omega
  simp [yField, getLsbD_layoutXYN, hi, h1]

@[simp] theorem nField_layoutXYN (op : Nibble) (x y : RegIdx) (n : Nibble) :
    nField (layoutXYN op x y n) = n := by
  apply BitVec.eq_of_getLsbD_eq; intro i hi
  simp [nField, getLsbD_layoutXYN, hi]

/-! ### A word is the layout of its fields: no bit is dropped (R98) -/

theorem layoutNNN_fields (w : Word) : layoutNNN (opField w) (nnnField w) = w := by
  apply BitVec.eq_of_getLsbD_eq; intro i hi
  rw [getLsbD_layoutNNN]
  by_cases h : i < 12
  · simp [h, nnnField]
  · simp [h, opField, show i - 12 < 4 by omega, show 12 + (i - 12) = i by omega]

theorem layoutXNN_fields (w : Word) : layoutXNN (opField w) (xField w) (nnField w) = w := by
  apply BitVec.eq_of_getLsbD_eq; intro i hi
  rw [getLsbD_layoutXNN]
  by_cases h : i < 8
  · simp [h, nnField]
  · by_cases h' : i < 12
    · simp [h, h', xField, show i - 8 < 4 by omega, show 8 + (i - 8) = i by omega]
    · simp [h, h', opField, show i - 12 < 4 by omega, show 12 + (i - 12) = i by omega]

theorem layoutXYN_fields (w : Word) : layoutXYN (opField w) (xField w) (yField w) (nField w) = w := by
  apply BitVec.eq_of_getLsbD_eq; intro i hi
  rw [getLsbD_layoutXYN]
  by_cases h : i < 4
  · simp [h, nField]
  · by_cases h' : i < 8
    · simp [h, h', yField, show i - 4 < 4 by omega, show 4 + (i - 4) = i by omega]
    · by_cases h'' : i < 12
      · simp [h, h', h'', xField, show i - 8 < 4 by omega, show 8 + (i - 8) = i by omega]
      · simp [h, h', h'', opField, show i - 12 < 4 by omega, show 12 + (i - 12) = i by omega]

/-! ### The bytes of a word (R64) -/

theorem wordOfBytes_bytesOfWord (w : Word) :
    wordOfBytes (w.extractLsb' 8 8) (w.extractLsb' 0 8) = w := by
  apply BitVec.eq_of_getLsbD_eq; intro i hi
  refine (BitVec.getLsbD_append (x := w.extractLsb' 8 8)).trans ?_
  by_cases h : i < 8
  · simp [h]
  · simp [h, show i - 8 < 8 by omega, show 8 + (i - 8) = i by omega]

/-- The decoder on two bytes is the decoder on their word. -/
theorem decode_two (hi lo : Byte) (rest : List Byte) : decode (hi :: lo :: rest) =
    match decodeWord (wordOfBytes hi lo) with
    | .ok i => .ok (i, rest)
    | .error e => .error e := rfl

end Sys2Proof
end

