-- ==== Sys2Proof/Laws/State.lean ====
section
/-! SUPPORT. One lemma per field per update of the state, true by rfl, so that no later proof unfolds a
record update; and what each update does to reading a register or a byte of memory. -/

namespace Sys2Proof.Machine

variable (s : State)

/-! ### writeV -/

@[simp] theorem State.writeV_v (x : RegIdx) (b : Byte) : (s.writeV x b).v = s.v.set x.toNat b x.isLt := rfl
@[simp] theorem State.writeV_i (x : RegIdx) (b : Byte) : (s.writeV x b).i = s.i := rfl
@[simp] theorem State.writeV_pc (x : RegIdx) (b : Byte) : (s.writeV x b).pc = s.pc := rfl
@[simp] theorem State.writeV_stack (x : RegIdx) (b : Byte) : (s.writeV x b).stack = s.stack := rfl
@[simp] theorem State.writeV_sp (x : RegIdx) (b : Byte) : (s.writeV x b).sp = s.sp := rfl
@[simp] theorem State.writeV_dt (x : RegIdx) (b : Byte) : (s.writeV x b).dt = s.dt := rfl
@[simp] theorem State.writeV_st (x : RegIdx) (b : Byte) : (s.writeV x b).st = s.st := rfl
@[simp] theorem State.writeV_mem (x : RegIdx) (b : Byte) : (s.writeV x b).mem = s.mem := rfl
@[simp] theorem State.writeV_fb (x : RegIdx) (b : Byte) : (s.writeV x b).fb = s.fb := rfl
@[simp] theorem State.writeV_phase (x : RegIdx) (b : Byte) : (s.writeV x b).phase = s.phase := rfl
@[simp] theorem State.writeV_faultRecord (x : RegIdx) (b : Byte) : (s.writeV x b).faultRecord = s.faultRecord := rfl
@[simp] theorem State.writeV_loaded (x : RegIdx) (b : Byte) : (s.writeV x b).loaded = s.loaded := rfl
@[simp] theorem State.writeV_samples (x : RegIdx) (b : Byte) : (s.writeV x b).samples = s.samples := rfl
@[simp] theorem State.writeV_config (x : RegIdx) (b : Byte) : (s.writeV x b).config = s.config := rfl
@[simp] theorem State.memRead_writeV (x : RegIdx) (b : Byte) (m : Nat) : (s.writeV x b).memRead m = s.memRead m := rfl

/-! ### memWrite -/

@[simp] theorem State.memWrite_v (a : Nat) (b : Byte) : (s.memWrite a b).v = s.v := rfl
@[simp] theorem State.memWrite_i (a : Nat) (b : Byte) : (s.memWrite a b).i = s.i := rfl
@[simp] theorem State.memWrite_pc (a : Nat) (b : Byte) : (s.memWrite a b).pc = s.pc := rfl
@[simp] theorem State.memWrite_stack (a : Nat) (b : Byte) : (s.memWrite a b).stack = s.stack := rfl
@[simp] theorem State.memWrite_sp (a : Nat) (b : Byte) : (s.memWrite a b).sp = s.sp := rfl
@[simp] theorem State.memWrite_dt (a : Nat) (b : Byte) : (s.memWrite a b).dt = s.dt := rfl
@[simp] theorem State.memWrite_st (a : Nat) (b : Byte) : (s.memWrite a b).st = s.st := rfl
@[simp] theorem State.memWrite_mem (a : Nat) (b : Byte) : (s.memWrite a b).mem = Memory.write s.config s.mem (effAddr a) b := rfl
@[simp] theorem State.memWrite_fb (a : Nat) (b : Byte) : (s.memWrite a b).fb = s.fb := rfl
@[simp] theorem State.memWrite_phase (a : Nat) (b : Byte) : (s.memWrite a b).phase = s.phase := rfl
@[simp] theorem State.memWrite_faultRecord (a : Nat) (b : Byte) : (s.memWrite a b).faultRecord = s.faultRecord := rfl
@[simp] theorem State.memWrite_loaded (a : Nat) (b : Byte) : (s.memWrite a b).loaded = s.loaded := rfl
@[simp] theorem State.memWrite_samples (a : Nat) (b : Byte) : (s.memWrite a b).samples = s.samples := rfl
@[simp] theorem State.memWrite_config (a : Nat) (b : Byte) : (s.memWrite a b).config = s.config := rfl
@[simp] theorem State.readV_memWrite (a : Nat) (b : Byte) (r : RegIdx) : (s.memWrite a b).readV r = s.readV r := rfl

/-! ### setI -/

@[simp] theorem State.setI_v (w : Word) : (s.setI w).v = s.v := rfl
@[simp] theorem State.setI_i (w : Word) : (s.setI w).i = w := rfl
@[simp] theorem State.setI_pc (w : Word) : (s.setI w).pc = s.pc := rfl
@[simp] theorem State.setI_stack (w : Word) : (s.setI w).stack = s.stack := rfl
@[simp] theorem State.setI_sp (w : Word) : (s.setI w).sp = s.sp := rfl
@[simp] theorem State.setI_dt (w : Word) : (s.setI w).dt = s.dt := rfl
@[simp] theorem State.setI_st (w : Word) : (s.setI w).st = s.st := rfl
@[simp] theorem State.setI_mem (w : Word) : (s.setI w).mem = s.mem := rfl
@[simp] theorem State.setI_fb (w : Word) : (s.setI w).fb = s.fb := rfl
@[simp] theorem State.setI_phase (w : Word) : (s.setI w).phase = s.phase := rfl
@[simp] theorem State.setI_faultRecord (w : Word) : (s.setI w).faultRecord = s.faultRecord := rfl
@[simp] theorem State.setI_loaded (w : Word) : (s.setI w).loaded = s.loaded := rfl
@[simp] theorem State.setI_samples (w : Word) : (s.setI w).samples = s.samples := rfl
@[simp] theorem State.setI_config (w : Word) : (s.setI w).config = s.config := rfl
@[simp] theorem State.readV_setI (w : Word) (r : RegIdx) : (s.setI w).readV r = s.readV r := rfl
@[simp] theorem State.memRead_setI (w : Word) (m : Nat) : (s.setI w).memRead m = s.memRead m := rfl

/-! ### setDt -/

@[simp] theorem State.setDt_v (b : Byte) : (s.setDt b).v = s.v := rfl
@[simp] theorem State.setDt_i (b : Byte) : (s.setDt b).i = s.i := rfl
@[simp] theorem State.setDt_pc (b : Byte) : (s.setDt b).pc = s.pc := rfl
@[simp] theorem State.setDt_stack (b : Byte) : (s.setDt b).stack = s.stack := rfl
@[simp] theorem State.setDt_sp (b : Byte) : (s.setDt b).sp = s.sp := rfl
@[simp] theorem State.setDt_dt (b : Byte) : (s.setDt b).dt = b := rfl
@[simp] theorem State.setDt_st (b : Byte) : (s.setDt b).st = s.st := rfl
@[simp] theorem State.setDt_mem (b : Byte) : (s.setDt b).mem = s.mem := rfl
@[simp] theorem State.setDt_fb (b : Byte) : (s.setDt b).fb = s.fb := rfl
@[simp] theorem State.setDt_phase (b : Byte) : (s.setDt b).phase = s.phase := rfl
@[simp] theorem State.setDt_faultRecord (b : Byte) : (s.setDt b).faultRecord = s.faultRecord := rfl
@[simp] theorem State.setDt_loaded (b : Byte) : (s.setDt b).loaded = s.loaded := rfl
@[simp] theorem State.setDt_samples (b : Byte) : (s.setDt b).samples = s.samples := rfl
@[simp] theorem State.setDt_config (b : Byte) : (s.setDt b).config = s.config := rfl
@[simp] theorem State.readV_setDt (b : Byte) (r : RegIdx) : (s.setDt b).readV r = s.readV r := rfl
@[simp] theorem State.memRead_setDt (b : Byte) (m : Nat) : (s.setDt b).memRead m = s.memRead m := rfl

/-! ### setSt -/

@[simp] theorem State.setSt_v (b : Byte) : (s.setSt b).v = s.v := rfl
@[simp] theorem State.setSt_i (b : Byte) : (s.setSt b).i = s.i := rfl
@[simp] theorem State.setSt_pc (b : Byte) : (s.setSt b).pc = s.pc := rfl
@[simp] theorem State.setSt_stack (b : Byte) : (s.setSt b).stack = s.stack := rfl
@[simp] theorem State.setSt_sp (b : Byte) : (s.setSt b).sp = s.sp := rfl
@[simp] theorem State.setSt_dt (b : Byte) : (s.setSt b).dt = s.dt := rfl
@[simp] theorem State.setSt_st (b : Byte) : (s.setSt b).st = b := rfl
@[simp] theorem State.setSt_mem (b : Byte) : (s.setSt b).mem = s.mem := rfl
@[simp] theorem State.setSt_fb (b : Byte) : (s.setSt b).fb = s.fb := rfl
@[simp] theorem State.setSt_phase (b : Byte) : (s.setSt b).phase = s.phase := rfl
@[simp] theorem State.setSt_faultRecord (b : Byte) : (s.setSt b).faultRecord = s.faultRecord := rfl
@[simp] theorem State.setSt_loaded (b : Byte) : (s.setSt b).loaded = s.loaded := rfl
@[simp] theorem State.setSt_samples (b : Byte) : (s.setSt b).samples = s.samples := rfl
@[simp] theorem State.setSt_config (b : Byte) : (s.setSt b).config = s.config := rfl
@[simp] theorem State.readV_setSt (b : Byte) (r : RegIdx) : (s.setSt b).readV r = s.readV r := rfl
@[simp] theorem State.memRead_setSt (b : Byte) (m : Nat) : (s.setSt b).memRead m = s.memRead m := rfl

/-! ### setPc -/

@[simp] theorem State.setPc_v (n : Nat) : (s.setPc n).v = s.v := rfl
@[simp] theorem State.setPc_i (n : Nat) : (s.setPc n).i = s.i := rfl
@[simp] theorem State.setPc_pc (n : Nat) : (s.setPc n).pc = BitVec.ofNat 16 (n % 0x1000) := rfl
@[simp] theorem State.setPc_stack (n : Nat) : (s.setPc n).stack = s.stack := rfl
@[simp] theorem State.setPc_sp (n : Nat) : (s.setPc n).sp = s.sp := rfl
@[simp] theorem State.setPc_dt (n : Nat) : (s.setPc n).dt = s.dt := rfl
@[simp] theorem State.setPc_st (n : Nat) : (s.setPc n).st = s.st := rfl
@[simp] theorem State.setPc_mem (n : Nat) : (s.setPc n).mem = s.mem := rfl
@[simp] theorem State.setPc_fb (n : Nat) : (s.setPc n).fb = s.fb := rfl
@[simp] theorem State.setPc_phase (n : Nat) : (s.setPc n).phase = s.phase := rfl
@[simp] theorem State.setPc_faultRecord (n : Nat) : (s.setPc n).faultRecord = s.faultRecord := rfl
@[simp] theorem State.setPc_loaded (n : Nat) : (s.setPc n).loaded = s.loaded := rfl
@[simp] theorem State.setPc_samples (n : Nat) : (s.setPc n).samples = s.samples := rfl
@[simp] theorem State.setPc_config (n : Nat) : (s.setPc n).config = s.config := rfl
@[simp] theorem State.readV_setPc (n : Nat) (r : RegIdx) : (s.setPc n).readV r = s.readV r := rfl
@[simp] theorem State.memRead_setPc (n : Nat) (m : Nat) : (s.setPc n).memRead m = s.memRead m := rfl

/-! ### advance -/

@[simp] theorem State.advance_v : (s.advance).v = s.v := rfl
@[simp] theorem State.advance_i : (s.advance).i = s.i := rfl
@[simp] theorem State.advance_pc : (s.advance).pc = BitVec.ofNat 16 ((s.pc.toNat + 2) % 0x1000) := rfl
@[simp] theorem State.advance_stack : (s.advance).stack = s.stack := rfl
@[simp] theorem State.advance_sp : (s.advance).sp = s.sp := rfl
@[simp] theorem State.advance_dt : (s.advance).dt = s.dt := rfl
@[simp] theorem State.advance_st : (s.advance).st = s.st := rfl
@[simp] theorem State.advance_mem : (s.advance).mem = s.mem := rfl
@[simp] theorem State.advance_fb : (s.advance).fb = s.fb := rfl
@[simp] theorem State.advance_phase : (s.advance).phase = s.phase := rfl
@[simp] theorem State.advance_faultRecord : (s.advance).faultRecord = s.faultRecord := rfl
@[simp] theorem State.advance_loaded : (s.advance).loaded = s.loaded := rfl
@[simp] theorem State.advance_samples : (s.advance).samples = s.samples := rfl
@[simp] theorem State.advance_config : (s.advance).config = s.config := rfl
@[simp] theorem State.readV_advance (r : RegIdx) : (s.advance).readV r = s.readV r := rfl
@[simp] theorem State.memRead_advance (m : Nat) : (s.advance).memRead m = s.memRead m := rfl

/-! ### skip -/

@[simp] theorem State.skip_v : (s.skip).v = s.v := rfl
@[simp] theorem State.skip_i : (s.skip).i = s.i := rfl
@[simp] theorem State.skip_pc : (s.skip).pc = BitVec.ofNat 16 ((s.pc.toNat + 2) % 0x1000) := rfl
@[simp] theorem State.skip_stack : (s.skip).stack = s.stack := rfl
@[simp] theorem State.skip_sp : (s.skip).sp = s.sp := rfl
@[simp] theorem State.skip_dt : (s.skip).dt = s.dt := rfl
@[simp] theorem State.skip_st : (s.skip).st = s.st := rfl
@[simp] theorem State.skip_mem : (s.skip).mem = s.mem := rfl
@[simp] theorem State.skip_fb : (s.skip).fb = s.fb := rfl
@[simp] theorem State.skip_phase : (s.skip).phase = s.phase := rfl
@[simp] theorem State.skip_faultRecord : (s.skip).faultRecord = s.faultRecord := rfl
@[simp] theorem State.skip_loaded : (s.skip).loaded = s.loaded := rfl
@[simp] theorem State.skip_samples : (s.skip).samples = s.samples := rfl
@[simp] theorem State.skip_config : (s.skip).config = s.config := rfl
@[simp] theorem State.readV_skip (r : RegIdx) : (s.skip).readV r = s.readV r := rfl
@[simp] theorem State.memRead_skip (m : Nat) : (s.skip).memRead m = s.memRead m := rfl

/-! ### setPhase -/

@[simp] theorem State.setPhase_v (p : Phase) : (s.setPhase p).v = s.v := rfl
@[simp] theorem State.setPhase_i (p : Phase) : (s.setPhase p).i = s.i := rfl
@[simp] theorem State.setPhase_pc (p : Phase) : (s.setPhase p).pc = s.pc := rfl
@[simp] theorem State.setPhase_stack (p : Phase) : (s.setPhase p).stack = s.stack := rfl
@[simp] theorem State.setPhase_sp (p : Phase) : (s.setPhase p).sp = s.sp := rfl
@[simp] theorem State.setPhase_dt (p : Phase) : (s.setPhase p).dt = s.dt := rfl
@[simp] theorem State.setPhase_st (p : Phase) : (s.setPhase p).st = s.st := rfl
@[simp] theorem State.setPhase_mem (p : Phase) : (s.setPhase p).mem = s.mem := rfl
@[simp] theorem State.setPhase_fb (p : Phase) : (s.setPhase p).fb = s.fb := rfl
@[simp] theorem State.setPhase_phase (p : Phase) : (s.setPhase p).phase = p := rfl
@[simp] theorem State.setPhase_faultRecord (p : Phase) : (s.setPhase p).faultRecord = s.faultRecord := rfl
@[simp] theorem State.setPhase_loaded (p : Phase) : (s.setPhase p).loaded = s.loaded := rfl
@[simp] theorem State.setPhase_samples (p : Phase) : (s.setPhase p).samples = s.samples := rfl
@[simp] theorem State.setPhase_config (p : Phase) : (s.setPhase p).config = s.config := rfl
@[simp] theorem State.readV_setPhase (p : Phase) (r : RegIdx) : (s.setPhase p).readV r = s.readV r := rfl
@[simp] theorem State.memRead_setPhase (p : Phase) (m : Nat) : (s.setPhase p).memRead m = s.memRead m := rfl

/-! ### takeSample -/

@[simp] theorem State.takeSample_v : (s.takeSample).v = s.v := rfl
@[simp] theorem State.takeSample_i : (s.takeSample).i = s.i := rfl
@[simp] theorem State.takeSample_pc : (s.takeSample).pc = s.pc := rfl
@[simp] theorem State.takeSample_stack : (s.takeSample).stack = s.stack := rfl
@[simp] theorem State.takeSample_sp : (s.takeSample).sp = s.sp := rfl
@[simp] theorem State.takeSample_dt : (s.takeSample).dt = s.dt := rfl
@[simp] theorem State.takeSample_st : (s.takeSample).st = s.st := rfl
@[simp] theorem State.takeSample_mem : (s.takeSample).mem = s.mem := rfl
@[simp] theorem State.takeSample_fb : (s.takeSample).fb = s.fb := rfl
@[simp] theorem State.takeSample_phase : (s.takeSample).phase = s.phase := rfl
@[simp] theorem State.takeSample_faultRecord : (s.takeSample).faultRecord = s.faultRecord := rfl
@[simp] theorem State.takeSample_loaded : (s.takeSample).loaded = s.loaded := rfl
@[simp] theorem State.takeSample_samples : (s.takeSample).samples = s.samples + 1 := rfl
@[simp] theorem State.takeSample_config : (s.takeSample).config = s.config := rfl
@[simp] theorem State.readV_takeSample (r : RegIdx) : (s.takeSample).readV r = s.readV r := rfl
@[simp] theorem State.memRead_takeSample (m : Nat) : (s.takeSample).memRead m = s.memRead m := rfl

/-! ### halt -/

@[simp] theorem State.halt_v (fr : FaultRecord) : (s.halt fr).v = s.v := rfl
@[simp] theorem State.halt_i (fr : FaultRecord) : (s.halt fr).i = s.i := rfl
@[simp] theorem State.halt_pc (fr : FaultRecord) : (s.halt fr).pc = s.pc := rfl
@[simp] theorem State.halt_stack (fr : FaultRecord) : (s.halt fr).stack = s.stack := rfl
@[simp] theorem State.halt_sp (fr : FaultRecord) : (s.halt fr).sp = s.sp := rfl
@[simp] theorem State.halt_dt (fr : FaultRecord) : (s.halt fr).dt = s.dt := rfl
@[simp] theorem State.halt_st (fr : FaultRecord) : (s.halt fr).st = s.st := rfl
@[simp] theorem State.halt_mem (fr : FaultRecord) : (s.halt fr).mem = s.mem := rfl
@[simp] theorem State.halt_fb (fr : FaultRecord) : (s.halt fr).fb = s.fb := rfl
@[simp] theorem State.halt_phase (fr : FaultRecord) : (s.halt fr).phase = .halted := rfl
@[simp] theorem State.halt_faultRecord (fr : FaultRecord) : (s.halt fr).faultRecord = some fr := rfl
@[simp] theorem State.halt_loaded (fr : FaultRecord) : (s.halt fr).loaded = s.loaded := rfl
@[simp] theorem State.halt_samples (fr : FaultRecord) : (s.halt fr).samples = s.samples := rfl
@[simp] theorem State.halt_config (fr : FaultRecord) : (s.halt fr).config = s.config := rfl
@[simp] theorem State.readV_halt (fr : FaultRecord) (r : RegIdx) : (s.halt fr).readV r = s.readV r := rfl
@[simp] theorem State.memRead_halt (fr : FaultRecord) (m : Nat) : (s.halt fr).memRead m = s.memRead m := rfl

/-! ### raise -/

@[simp] theorem State.raise_v (k : FaultKind) (w : Word) (n : Option Nat) : (s.raise k w n).v = s.v := rfl
@[simp] theorem State.raise_i (k : FaultKind) (w : Word) (n : Option Nat) : (s.raise k w n).i = s.i := rfl
@[simp] theorem State.raise_pc (k : FaultKind) (w : Word) (n : Option Nat) : (s.raise k w n).pc = s.pc := rfl
@[simp] theorem State.raise_stack (k : FaultKind) (w : Word) (n : Option Nat) : (s.raise k w n).stack = s.stack := rfl
@[simp] theorem State.raise_sp (k : FaultKind) (w : Word) (n : Option Nat) : (s.raise k w n).sp = s.sp := rfl
@[simp] theorem State.raise_dt (k : FaultKind) (w : Word) (n : Option Nat) : (s.raise k w n).dt = s.dt := rfl
@[simp] theorem State.raise_st (k : FaultKind) (w : Word) (n : Option Nat) : (s.raise k w n).st = s.st := rfl
@[simp] theorem State.raise_mem (k : FaultKind) (w : Word) (n : Option Nat) : (s.raise k w n).mem = s.mem := rfl
@[simp] theorem State.raise_fb (k : FaultKind) (w : Word) (n : Option Nat) : (s.raise k w n).fb = s.fb := rfl
@[simp] theorem State.raise_phase (k : FaultKind) (w : Word) (n : Option Nat) : (s.raise k w n).phase = .halted := rfl
@[simp] theorem State.raise_faultRecord (k : FaultKind) (w : Word) (n : Option Nat) : (s.raise k w n).faultRecord = some ⟨k, s.pc, w, n⟩ := rfl
@[simp] theorem State.raise_loaded (k : FaultKind) (w : Word) (n : Option Nat) : (s.raise k w n).loaded = s.loaded := rfl
@[simp] theorem State.raise_samples (k : FaultKind) (w : Word) (n : Option Nat) : (s.raise k w n).samples = s.samples := rfl
@[simp] theorem State.raise_config (k : FaultKind) (w : Word) (n : Option Nat) : (s.raise k w n).config = s.config := rfl
@[simp] theorem State.readV_raise (k : FaultKind) (w : Word) (n : Option Nat) (r : RegIdx) : (s.raise k w n).readV r = s.readV r := rfl
@[simp] theorem State.memRead_raise (k : FaultKind) (w : Word) (n : Option Nat) (m : Nat) : (s.raise k w n).memRead m = s.memRead m := rfl

/-! ### setFb -/

@[simp] theorem State.setFb_v (f : Framebuffer) : (s.setFb f).v = s.v := rfl
@[simp] theorem State.setFb_i (f : Framebuffer) : (s.setFb f).i = s.i := rfl
@[simp] theorem State.setFb_pc (f : Framebuffer) : (s.setFb f).pc = s.pc := rfl
@[simp] theorem State.setFb_stack (f : Framebuffer) : (s.setFb f).stack = s.stack := rfl
@[simp] theorem State.setFb_sp (f : Framebuffer) : (s.setFb f).sp = s.sp := rfl
@[simp] theorem State.setFb_dt (f : Framebuffer) : (s.setFb f).dt = s.dt := rfl
@[simp] theorem State.setFb_st (f : Framebuffer) : (s.setFb f).st = s.st := rfl
@[simp] theorem State.setFb_mem (f : Framebuffer) : (s.setFb f).mem = s.mem := rfl
@[simp] theorem State.setFb_fb (f : Framebuffer) : (s.setFb f).fb = f := rfl
@[simp] theorem State.setFb_phase (f : Framebuffer) : (s.setFb f).phase = s.phase := rfl
@[simp] theorem State.setFb_faultRecord (f : Framebuffer) : (s.setFb f).faultRecord = s.faultRecord := rfl
@[simp] theorem State.setFb_loaded (f : Framebuffer) : (s.setFb f).loaded = s.loaded := rfl
@[simp] theorem State.setFb_samples (f : Framebuffer) : (s.setFb f).samples = s.samples := rfl
@[simp] theorem State.setFb_config (f : Framebuffer) : (s.setFb f).config = s.config := rfl
@[simp] theorem State.readV_setFb (f : Framebuffer) (r : RegIdx) : (s.setFb f).readV r = s.readV r := rfl
@[simp] theorem State.memRead_setFb (f : Framebuffer) (m : Nat) : (s.setFb f).memRead m = s.memRead m := rfl

/-! ### timerStep -/

@[simp] theorem State.timerStep_v : (s.timerStep).v = s.v := rfl
@[simp] theorem State.timerStep_i : (s.timerStep).i = s.i := rfl
@[simp] theorem State.timerStep_pc : (s.timerStep).pc = s.pc := rfl
@[simp] theorem State.timerStep_stack : (s.timerStep).stack = s.stack := rfl
@[simp] theorem State.timerStep_sp : (s.timerStep).sp = s.sp := rfl
@[simp] theorem State.timerStep_dt : (s.timerStep).dt = countDown s.dt := rfl
@[simp] theorem State.timerStep_st : (s.timerStep).st = countDown s.st := rfl
@[simp] theorem State.timerStep_mem : (s.timerStep).mem = s.mem := rfl
@[simp] theorem State.timerStep_fb : (s.timerStep).fb = s.fb := rfl
@[simp] theorem State.timerStep_phase : (s.timerStep).phase = s.phase := rfl
@[simp] theorem State.timerStep_faultRecord : (s.timerStep).faultRecord = s.faultRecord := rfl
@[simp] theorem State.timerStep_loaded : (s.timerStep).loaded = s.loaded := rfl
@[simp] theorem State.timerStep_samples : (s.timerStep).samples = s.samples := rfl
@[simp] theorem State.timerStep_config : (s.timerStep).config = s.config := rfl
@[simp] theorem State.readV_timerStep (r : RegIdx) : (s.timerStep).readV r = s.readV r := rfl
@[simp] theorem State.memRead_timerStep (m : Nat) : (s.timerStep).memRead m = s.memRead m := rfl

/-! ### writeResult -/

@[simp] theorem State.writeResult_v (x : RegIdx) (b : Byte) (c : Bool) : (s.writeResult x b c).v = (s.v.set x.toNat b x.isLt).set vf.toNat (flagByte c) vf.isLt := rfl
@[simp] theorem State.writeResult_i (x : RegIdx) (b : Byte) (c : Bool) : (s.writeResult x b c).i = s.i := rfl
@[simp] theorem State.writeResult_pc (x : RegIdx) (b : Byte) (c : Bool) : (s.writeResult x b c).pc = s.pc := rfl
@[simp] theorem State.writeResult_stack (x : RegIdx) (b : Byte) (c : Bool) : (s.writeResult x b c).stack = s.stack := rfl
@[simp] theorem State.writeResult_sp (x : RegIdx) (b : Byte) (c : Bool) : (s.writeResult x b c).sp = s.sp := rfl
@[simp] theorem State.writeResult_dt (x : RegIdx) (b : Byte) (c : Bool) : (s.writeResult x b c).dt = s.dt := rfl
@[simp] theorem State.writeResult_st (x : RegIdx) (b : Byte) (c : Bool) : (s.writeResult x b c).st = s.st := rfl
@[simp] theorem State.writeResult_mem (x : RegIdx) (b : Byte) (c : Bool) : (s.writeResult x b c).mem = s.mem := rfl
@[simp] theorem State.writeResult_fb (x : RegIdx) (b : Byte) (c : Bool) : (s.writeResult x b c).fb = s.fb := rfl
@[simp] theorem State.writeResult_phase (x : RegIdx) (b : Byte) (c : Bool) : (s.writeResult x b c).phase = s.phase := rfl
@[simp] theorem State.writeResult_faultRecord (x : RegIdx) (b : Byte) (c : Bool) : (s.writeResult x b c).faultRecord = s.faultRecord := rfl
@[simp] theorem State.writeResult_loaded (x : RegIdx) (b : Byte) (c : Bool) : (s.writeResult x b c).loaded = s.loaded := rfl
@[simp] theorem State.writeResult_samples (x : RegIdx) (b : Byte) (c : Bool) : (s.writeResult x b c).samples = s.samples := rfl
@[simp] theorem State.writeResult_config (x : RegIdx) (b : Byte) (c : Bool) : (s.writeResult x b c).config = s.config := rfl
@[simp] theorem State.memRead_writeResult (x : RegIdx) (b : Byte) (c : Bool) (m : Nat) : (s.writeResult x b c).memRead m = s.memRead m := rfl

/-! ### skipIf, writeLogic: an update or another by a Bool -/

@[simp] theorem State.skipIf_v (b : Bool) : (s.skipIf b).v = s.v := by cases b <;> rfl
@[simp] theorem State.skipIf_i (b : Bool) : (s.skipIf b).i = s.i := by cases b <;> rfl
@[simp] theorem State.skipIf_stack (b : Bool) : (s.skipIf b).stack = s.stack := by cases b <;> rfl
@[simp] theorem State.skipIf_sp (b : Bool) : (s.skipIf b).sp = s.sp := by cases b <;> rfl
@[simp] theorem State.skipIf_dt (b : Bool) : (s.skipIf b).dt = s.dt := by cases b <;> rfl
@[simp] theorem State.skipIf_st (b : Bool) : (s.skipIf b).st = s.st := by cases b <;> rfl
@[simp] theorem State.skipIf_mem (b : Bool) : (s.skipIf b).mem = s.mem := by cases b <;> rfl
@[simp] theorem State.skipIf_fb (b : Bool) : (s.skipIf b).fb = s.fb := by cases b <;> rfl
@[simp] theorem State.skipIf_phase (b : Bool) : (s.skipIf b).phase = s.phase := by cases b <;> rfl
@[simp] theorem State.skipIf_faultRecord (b : Bool) : (s.skipIf b).faultRecord = s.faultRecord := by cases b <;> rfl
@[simp] theorem State.skipIf_loaded (b : Bool) : (s.skipIf b).loaded = s.loaded := by cases b <;> rfl
@[simp] theorem State.skipIf_samples (b : Bool) : (s.skipIf b).samples = s.samples := by cases b <;> rfl
@[simp] theorem State.skipIf_config (b : Bool) : (s.skipIf b).config = s.config := by cases b <;> rfl
@[simp] theorem State.readV_skipIf (b : Bool) (r : RegIdx) : (s.skipIf b).readV r = s.readV r := by cases b <;> rfl
@[simp] theorem State.memRead_skipIf (b : Bool) (m : Nat) : (s.skipIf b).memRead m = s.memRead m := by
  cases b <;> rfl
theorem State.skipIf_pc (b : Bool) :
    (s.skipIf b).pc = if b then BitVec.ofNat 16 ((s.pc.toNat + 2) % 0x1000) else s.pc := by cases b <;> rfl

@[simp] theorem State.writeLogic_i (x : RegIdx) (b : Byte) : (s.writeLogic x b).i = s.i := by
  unfold State.writeLogic; split <;> rfl
@[simp] theorem State.writeLogic_pc (x : RegIdx) (b : Byte) : (s.writeLogic x b).pc = s.pc := by
  unfold State.writeLogic; split <;> rfl
@[simp] theorem State.writeLogic_stack (x : RegIdx) (b : Byte) : (s.writeLogic x b).stack = s.stack := by
  unfold State.writeLogic; split <;> rfl
@[simp] theorem State.writeLogic_sp (x : RegIdx) (b : Byte) : (s.writeLogic x b).sp = s.sp := by
  unfold State.writeLogic; split <;> rfl
@[simp] theorem State.writeLogic_dt (x : RegIdx) (b : Byte) : (s.writeLogic x b).dt = s.dt := by
  unfold State.writeLogic; split <;> rfl
@[simp] theorem State.writeLogic_st (x : RegIdx) (b : Byte) : (s.writeLogic x b).st = s.st := by
  unfold State.writeLogic; split <;> rfl
@[simp] theorem State.writeLogic_mem (x : RegIdx) (b : Byte) : (s.writeLogic x b).mem = s.mem := by
  unfold State.writeLogic; split <;> rfl
@[simp] theorem State.writeLogic_fb (x : RegIdx) (b : Byte) : (s.writeLogic x b).fb = s.fb := by
  unfold State.writeLogic; split <;> rfl
@[simp] theorem State.writeLogic_phase (x : RegIdx) (b : Byte) : (s.writeLogic x b).phase = s.phase := by
  unfold State.writeLogic; split <;> rfl
@[simp] theorem State.writeLogic_faultRecord (x : RegIdx) (b : Byte) : (s.writeLogic x b).faultRecord = s.faultRecord := by
  unfold State.writeLogic; split <;> rfl
@[simp] theorem State.writeLogic_loaded (x : RegIdx) (b : Byte) : (s.writeLogic x b).loaded = s.loaded := by
  unfold State.writeLogic; split <;> rfl
@[simp] theorem State.writeLogic_samples (x : RegIdx) (b : Byte) : (s.writeLogic x b).samples = s.samples := by
  unfold State.writeLogic; split <;> rfl
@[simp] theorem State.writeLogic_config (x : RegIdx) (b : Byte) : (s.writeLogic x b).config = s.config := by
  unfold State.writeLogic; split <;> rfl
@[simp] theorem State.memRead_writeLogic (x : RegIdx) (b : Byte) (m : Nat) :
    (s.writeLogic x b).memRead m = s.memRead m := by
  unfold State.writeLogic; split <;> rfl

end Sys2Proof.Machine
end

