-- ==== Sys2Proof/Laws/Memory.lean ====
section
/-! SUPPORT. Memory: a read after a write, and the canonical form, which every write keeps. -/

namespace Sys2Proof.Machine

namespace Memory

theorem lookup_erase (m : Memory) (a b : Nat) :
    lookup (erase m a) b = if b = a then none else lookup m b := by
  induction m with
  | nil => simp [erase, lookup]
  | cons e m ih =>
    obtain ⟨k, w⟩ := e
    simp only [erase] at ih
    by_cases hk : k = a
    · subst hk
      simp only [erase, List.filter, bne_self_eq_false, ih, lookup]
      split <;> simp_all [eq_comm]
    · simp only [erase, List.filter, bne_iff_ne.mpr hk, lookup, ih]
      split <;> simp_all

theorem lookup_insert (m : Memory) (a b : Nat) (v : Byte) (h : lookup m a = none) :
    lookup (insert m a v) b = if b = a then some v else lookup m b := by
  induction m with
  | nil => simp [insert, lookup, eq_comm]
  | cons e m ih =>
    obtain ⟨k, w⟩ := e
    have hk : k ≠ a := by intro hk; simp [lookup, hk] at h
    have ih := ih (by simpa [lookup, hk] using h)
    simp only [insert]
    split
    · simp only [lookup]; simp [eq_comm]
    · simp only [lookup, ih]
      split <;> simp_all

/-- A read after a write: the byte written there, every other byte as before. No premise on the list. -/
theorem read_write (c : Config) (m : Memory) (a b : Nat) (v : Byte) :
    read c (write c m a v) b = if b = a then v else read c m b := by
  unfold read write
  have hn : lookup (erase m a) a = none := by simp [lookup_erase]
  split
  · rw [lookup_erase]; split <;> simp_all
  · rw [lookup_insert _ _ _ _ hn, lookup_erase]; split <;> simp_all

theorem mem_insert (m : Memory) (a : Nat) (v : Byte) (e : Host.Cell) :
    e ∈ insert m a v ↔ e = (a, v) ∨ e ∈ m := by
  induction m with
  | nil => simp [insert]
  | cons f m ih =>
    simp only [insert]
    split <;> simp [ih, or_left_comm]

theorem sorted_insert (m : Memory) (a : Nat) (v : Byte) (hs : m.Pairwise fun e f => e.1 < f.1)
    (ha : ∀ e ∈ m, e.1 ≠ a) : (insert m a v).Pairwise fun e f => e.1 < f.1 := by
  induction m with
  | nil => simp [insert]
  | cons f m ih =>
    obtain ⟨h1, h2⟩ := List.pairwise_cons.mp hs
    have hf := ha f (by simp)
    simp only [insert]
    split
    · rename_i hlt
      refine List.pairwise_cons.mpr ⟨?_, hs⟩
      intro e he
      rcases List.mem_cons.mp he with rfl | he
      · exact hlt
      · exact Nat.lt_trans hlt (h1 e he)
    · refine List.pairwise_cons.mpr ⟨?_, ih h2 fun e he => ha e (by simp [he])⟩
      intro e he
      rcases (mem_insert _ _ _ _).mp he with rfl | he
      · simp only at *; omega
      · exact h1 e he

theorem wf_iff (c : Config) (m : Memory) : wf c m = true ↔
    m.Pairwise (fun e f => e.1 < f.1) ∧ ∀ e ∈ m, e.1 < 4096 ∧ e.2 ≠ initial c e.1 := by
  simp [wf]

/-- A write to a location of the address space keeps the canonical form. -/
theorem wf_write (c : Config) (m : Memory) (a : Nat) (v : Byte) (ha : a < 4096) (h : wf c m = true) :
    wf c (write c m a v) = true := by
  rw [wf_iff] at *
  have hs : (erase m a).Pairwise fun e f => e.1 < f.1 := h.1.filter _
  have hin : ∀ e ∈ erase m a, e ∈ m ∧ e.1 ≠ a := by simp [erase]
  unfold write
  split
  · exact ⟨hs, fun e he => h.2 e (hin e he).1⟩
  · refine ⟨sorted_insert _ _ _ hs fun e he => (hin e he).2, ?_⟩
    intro e he
    rcases (mem_insert _ _ _ _).mp he with rfl | he
    · exact ⟨ha, by simpa⟩
    · exact h.2 e (hin e he).1

end Memory

/-- `MemRead` after `MemWrite` (R63, R75). -/
theorem State.memRead_memWrite (s : State) (a b : Nat) (v : Byte) :
    (s.memWrite a v).memRead b = if b % 4096 = a % 4096 then v else s.memRead b := by
  simp [State.memRead, State.memWrite, Memory.read_write, effAddr]

/-- Every `MemWrite` keeps the canonical form of memory. -/
theorem State.wf_memWrite (s : State) (a : Nat) (v : Byte) (h : Memory.wf s.config s.mem = true) :
    Memory.wf s.config (s.memWrite a v).mem = true :=
  Memory.wf_write _ _ _ _ (Nat.mod_lt _ (by decide)) h

end Sys2Proof.Machine
end

