-- ==== Sys2Proof/Laws/Registers.lean ====
section
/-! SUPPORT. Reading registers after they are written, and the return stack. -/

namespace Sys2Proof.Machine

@[simp] theorem State.readV_writeV (s : State) (x r : RegIdx) (b : Byte) :
    (s.writeV x b).readV r = if x = r then b else s.readV r := by
  simp [State.readV, State.writeV, Vector.getElem_set, BitVec.toNat_inj]

theorem State.readV_writeResult (s : State) (x r : RegIdx) (b : Byte) (c : Bool) :
    (s.writeResult x b c).readV r =
      if vf = r then flagByte c else if x = r then b else s.readV r := by
  rw [State.writeResult, State.readV_writeV, State.readV_writeV]

theorem State.readV_writeLogic (s : State) (x r : RegIdx) (b : Byte) :
    (s.writeLogic x b).readV r =
      if s.config.logicClearsVf = true ∧ vf = r then 0 else if x = r then b else s.readV r := by
  unfold State.writeLogic
  split <;> rename_i h <;> simp [h]

/-- Two states with the same register values have the same register file. -/
theorem State.v_ext (s t : State) (h : ∀ r, s.readV r = t.readV r) : s.v = t.v := by
  apply Vector.ext
  intro k hk
  have := h (BitVec.ofNat 4 k)
  simpa [State.readV, Nat.mod_eq_of_lt hk] using this

/-- Everything `Push` can do (R26). -/
theorem State.push_cases (s : State) (w : Word) :
    (s.sp.val = 16 ∧ s.push w = none) ∨
    (∃ h : s.sp.val < 16, s.push w =
      some { s with stack := s.stack.set s.sp.val w h, sp := ⟨s.sp.val + 1, by omega⟩ }) := by
  unfold State.push
  by_cases h : s.sp.val < 16
  · exact .inr ⟨h, by simp [h]⟩
  · exact .inl ⟨by omega, by simp [h]⟩

/-- Everything `Pop` can do (R27). -/
theorem State.pop_cases (s : State) :
    (s.sp.val = 0 ∧ s.pop = none) ∨
    (∃ _h : s.sp.val ≠ 0, s.pop =
      some (s.stack[s.sp.val - 1]'(by omega), { s with sp := ⟨s.sp.val - 1, by omega⟩ })) := by
  unfold State.pop
  by_cases h : s.sp.val = 0
  · exact .inl ⟨h, by simp [h]⟩
  · exact .inr ⟨h, by simp [h]⟩

end Sys2Proof.Machine
end

