-- ==== Sys2Proof/Laws/Transfer.lean ====
section
/-! SUPPORT. The block transfers of FX55 and FX65 (43_memory_index.md R197, R198): everything they can do. -/

namespace Sys2Proof.Machine

/-- A run of stores through one base address: it changes memory only. -/
theorem foldl_memWrite_eq (l : List Nat) (f : Nat → Nat) (g : Nat → Byte) (s : State) :
    ∃ m, l.foldl (fun t k => t.memWrite (f k) (g k)) s = { s with mem := m } ∧
      (Memory.wf s.config s.mem = true → Memory.wf s.config m = true) := by
  induction l generalizing s with
  | nil => exact ⟨s.mem, rfl, id⟩
  | cons a l ih =>
    obtain ⟨m, hm, hw⟩ := ih (s.memWrite (f a) (g a))
    exact ⟨m, hm, fun h => hw (s.wf_memWrite _ _ h)⟩

/-- `storeV` changes memory only, and keeps its canonical form. -/
theorem State.storeV_eq (s : State) (n : Nat) : ∃ m, s.storeV n = { s with mem := m } ∧
    (Memory.wf s.config s.mem = true → Memory.wf s.config m = true) :=
  foldl_memWrite_eq _ _ _ s

theorem State.storeV_succ (s : State) (n : Nat) : s.storeV (n + 1) =
    (s.storeV n).memWrite (s.i.toNat + n) (s.readV (BitVec.ofNat 4 n)) := by
  simp [State.storeV, List.range_succ]

/-- Memory after `storeV` of at most 16 registers: V[k] at I + k, every other byte as before. -/
theorem State.memRead_storeV (s : State) (n : Nat) (hn : n ≤ 16) (a : Nat) :
    (∀ k < n, a % 4096 = (s.i.toNat + k) % 4096 →
      (s.storeV n).memRead a = s.readV (BitVec.ofNat 4 k)) ∧
    ((∀ k < n, a % 4096 ≠ (s.i.toNat + k) % 4096) → (s.storeV n).memRead a = s.memRead a) := by
  induction n with
  | zero => exact ⟨fun k hk => by omega, fun _ => by simp [State.storeV]⟩
  | succ n ih =>
    obtain ⟨h1, h2⟩ := ih (by omega)
    rw [State.storeV_succ]
    refine ⟨fun k hk he => ?_, fun hne => ?_⟩
    · rw [State.memRead_memWrite]
      by_cases hkn : k = n
      · subst hkn; rw [if_pos he]
      · rw [if_neg, h1 k (by omega) he]
        omega
    · rw [State.memRead_memWrite, if_neg (hne n (by omega)), h2 fun k hk => hne k (by omega)]

/-- A run of register writes: it changes the registers only. -/
theorem foldl_writeV_eq (l : List Nat) (f : Nat → RegIdx) (g : Nat → Byte) (s : State) :
    ∃ v, l.foldl (fun t k => t.writeV (f k) (g k)) s = { s with v := v } := by
  induction l generalizing s with
  | nil => exact ⟨s.v, rfl⟩
  | cons a l ih => exact ih (s.writeV (f a) (g a))

/-- `loadV` changes the registers only. -/
theorem State.loadV_eq (s : State) (n : Nat) : ∃ v, s.loadV n = { s with v := v } :=
  foldl_writeV_eq _ _ _ s

theorem State.loadV_succ (s : State) (n : Nat) : s.loadV (n + 1) =
    (s.loadV n).writeV (BitVec.ofNat 4 n) (s.memRead (s.i.toNat + n)) := by
  simp [State.loadV, List.range_succ]

/-- The registers after `loadV` of `n` bytes: the byte at I + r in each register r below `n`. -/
theorem State.readV_loadV (s : State) (n : Nat) (hn : n ≤ 16) (r : RegIdx) :
    (s.loadV n).readV r = if r.toNat < n then s.memRead (s.i.toNat + r.toNat) else s.readV r := by
  induction n with
  | zero => simp [State.loadV]
  | succ n ih =>
    have hr : (BitVec.ofNat 4 n).toNat = n := by simp; omega
    rw [State.loadV_succ, State.readV_writeV, ih (by omega)]
    by_cases h : BitVec.ofNat 4 n = r
    · subst h; simp [hr]
    · have : r.toNat ≠ n := fun e => h (BitVec.eq_of_toNat_eq (by rw [hr, e]))
      rw [if_neg h]
      by_cases h' : r.toNat < n
      · rw [if_pos h', if_pos (by omega)]
      · rw [if_neg h', if_neg (by omega)]

end Sys2Proof.Machine
end

