-- ==== Sys2Proof/Laws/Exec.lean ====
section
/-! SUPPORT. What exec does with the instructions whose meaning branches, each said once; and that exec always
answers a next state (40_cycle.md R124: faults are taken). The other arms are one update, by rfl. -/

namespace Sys2Proof.Machine

theorem exec_call (nnn : Addr) (s : State) : exec (.call nnn) s =
    .next (if h : s.sp.val < 16 then
      { s with pc := BitVec.ofNat 16 (nnn.toNat % 0x1000), sp := ⟨s.sp.val + 1, by omega⟩,
               stack := s.stack.set s.sp.val (BitVec.ofNat 16 ((s.pc.toNat + 2) % 0x1000)) h }
      else s.raise .stackOverflow (encode (.call nnn)) none) := by
  by_cases h : s.sp.val < 16
  · rw [dif_pos h]
    have : s.advance.push s.advance.pc = _ := dif_pos h
    simp only [exec, execCall, this]; rfl
  · rw [dif_neg h]
    have : s.advance.push s.advance.pc = _ := dif_neg h
    simp only [exec, execCall, this]

theorem exec_ret (s : State) : exec .ret s =
    .next (if _h : s.sp.val = 0 then s.raise .stackUnderflow (encode .ret) none
      else { s with pc := BitVec.ofNat 16 ((s.stack[s.sp.val - 1]'(by omega)).toNat % 0x1000),
                    sp := ⟨s.sp.val - 1, by omega⟩ }) := by
  by_cases h : s.sp.val = 0
  · rw [dif_pos h]
    have : s.advance.pop = _ := dif_pos h
    simp only [exec, execRet, this]
  · rw [dif_neg h]
    have : s.advance.pop = _ := dif_neg h
    simp only [exec, execRet, this]; rfl

/-- FX29 faults only in mode `fault` above 0xF (R193). -/
theorem exec_ldFVx (x : RegIdx) (s : State) : exec (.ldFVx x) s =
    .next (if s.config.fontIndexMode = .fault ∧ (s.readV x).toNat > 0xF then
        s.raise .fontRange (encode (.ldFVx x)) (some (s.readV x).toNat)
      else s.advance.setI (BitVec.ofNat 16 (5 * if s.config.fontIndexMode = .lowNibble
        then (s.readV x).toNat % 16 else (s.readV x).toNat))) := by
  simp only [exec, execLdFVx]
  cases hm : s.config.fontIndexMode
  · simp [fontAddress]
  · simp [fontAddress]
  · by_cases hv : (s.readV x).toNat > 0xF
    · simp only [fontAddress]; rw [if_pos hv, if_pos ⟨trivial, hv⟩]
    · simp only [fontAddress]; rw [if_neg hv, if_neg fun h => hv h.2]; simp

/-- EX9E and EXA1 fault only in mode `fault` above 0xF; otherwise they skip by the state of the key, and in mode
`notDown` a value above 0xF is a key that is never down (R232 to R234). -/
theorem pollKey_eq (w : Word) (b : Bool) (snap : BitVec 16) (x : RegIdx) (s : State) : pollKey w b snap x s =
    if (s.readV x).toNat > 0xF ∧ s.config.keyRangeMode = .fault then
      s.raise .keyRange w (some (s.readV x).toNat)
    else s.advance.takeSample.skipIf
      ((if (s.readV x).toNat > 0xF ∧ s.config.keyRangeMode = .notDown then false
        else snap.getLsbD ((s.readV x).toNat % 16)) == b) := by
  unfold pollKey keyIndex
  by_cases hv : (s.readV x).toNat ≤ 0xF
  · simp [hv, show ¬ 15 < (s.readV x).toNat by omega, keyDown]
  · cases hm : s.config.keyRangeMode <;> simp [hv, show 15 < (s.readV x).toNat by omega, keyDown]

theorem exec_skp (x : RegIdx) (s : State) : exec (.skp x) s =
    .next (if (s.readV x).toNat > 0xF ∧ s.config.keyRangeMode = .fault then
      s.raise .keyRange (encode (.skp x)) (some (s.readV x).toNat)
    else s.advance.takeSample.skipIf
      ((if (s.readV x).toNat > 0xF ∧ s.config.keyRangeMode = .notDown then false
        else (Config.keyDownSample s.samples).getLsbD ((s.readV x).toNat % 16)) == true)) :=
  congrArg Host.Outcome.next (pollKey_eq _ _ _ x s)

theorem exec_sknp (x : RegIdx) (s : State) : exec (.sknp x) s =
    .next (if (s.readV x).toNat > 0xF ∧ s.config.keyRangeMode = .fault then
      s.raise .keyRange (encode (.sknp x)) (some (s.readV x).toNat)
    else s.advance.takeSample.skipIf
      ((if (s.readV x).toNat > 0xF ∧ s.config.keyRangeMode = .notDown then false
        else (Config.keyDownSample s.samples).getLsbD ((s.readV x).toNat % 16)) == false)) :=
  congrArg Host.Outcome.next (pollKey_eq _ _ _ x s)

theorem exec_ldIMemVx (x : RegIdx) (s : State) : ∃ m, exec (.ldIMemVx x) s =
    .next { s.advance with mem := m, i := indexAfterTransfer s (x.toNat + 1) } ∧
    m = (s.advance.storeV (x.toNat + 1)).mem ∧
    (Memory.wf s.config s.mem = true → Memory.wf s.config m = true) := by
  obtain ⟨m, h, hw⟩ := s.advance.storeV_eq (x.toNat + 1)
  refine ⟨m, ?_, by rw [h], hw⟩
  simp only [exec, execLdIMemVx, h]; rfl

theorem exec_ldVxIMem (x : RegIdx) (s : State) : ∃ v, exec (.ldVxIMem x) s =
    .next { s.advance with v := v, i := indexAfterTransfer s (x.toNat + 1) } ∧
    v = (s.advance.loadV (x.toNat + 1)).v := by
  obtain ⟨v, h⟩ := s.advance.loadV_eq (x.toNat + 1)
  refine ⟨v, ?_, by rw [h]⟩
  simp only [exec, execLdVxIMem, h]; rfl

/-- exec never stops: every instruction answers a next state. -/
theorem exec_answers_next (i : Instr) (s : State) : ∃ t, exec i s = .next t := by
  cases i
  case call => exact ⟨_, exec_call _ _⟩
  case ret => exact ⟨_, exec_ret _⟩
  case ldFVx => exact ⟨_, exec_ldFVx _ _⟩
  all_goals exact ⟨_, rfl⟩

end Sys2Proof.Machine
end

