-- ==== Sys2Proof/Laws/Cycle.lean ====
section
/-! SUPPORT. Everything a cycle and a step can do (40_cycle.md R120, R127, R128; 45_keypad.md R236). -/

namespace Sys2Proof.Machine

/-- A cycle either finds no instruction and halts, or executes the decoded one and finishes. -/
theorem runCycle_cases (s : State) :
    (∃ e, decodeWord (fetchWord s) = .error e ∧
      runCycle s = .next (s.raise .decodeError (fetchWord s) none)) ∨
    (∃ i t, decodeWord (fetchWord s) = .ok i ∧ exec i s = .next t ∧ runCycle s = .next (finishCycle t)) := by
  unfold runCycle fetchBytes
  rw [decode_two]

  cases h : decodeWord (fetchWord s) with
  | error e =>
    refine .inl ⟨e, rfl, ?_⟩
    unfold fetchWord at h
    simp only [h]
  | ok i =>
    obtain ⟨t, ht⟩ := exec_answers_next i s
    refine .inr ⟨i, t, rfl, ht, ?_⟩
    unfold fetchWord at h
    simp only [h, ht]

/-- Everything a step can do. -/
theorem step_cases (s t : State) (h : step s = .next t) :
    (s.phase = .running ∧ runCycle s = .next t) ∨
    (s.phase = .idle ∧ s.loaded = true ∧ runCycle (s.setPhase .running) = .next t) ∨
    (∃ x, s.phase = .waitKey x ∧ t = waitForKey x (Config.keyEventSample s.samples) s) := by
  unfold step executeCycle at h
  cases hp : s.phase with
  | idle =>
    cases hl : s.loaded <;> simp_all
  | running => simp_all
  | waitKey x => simp_all
  | halted => simp_all

/-- A step of a machine that accepts `execute_cycle()` is a cycle from phase Running (R120, R127). -/
theorem step_of_ready (s : State) (h : s.Ready) : step s = runCycle (s.setPhase .running) := by
  rcases h with h | ⟨h, hl⟩
  · have : s.setPhase .running = s := by rw [← h]; rfl
    simp [step, executeCycle, h, this]
  · simp [step, executeCycle, h, hl]

@[simp] theorem fetchWord_setPhase (s : State) (p : Phase) : fetchWord (s.setPhase p) = fetchWord s := rfl

@[simp] theorem finishCycle_raise (s : State) (k : FaultKind) (w : Word) (n : Option Nat) :
    finishCycle (s.raise k w n) = s.raise k w n := rfl

/-- The end of a cycle touches nothing but the timers. -/
theorem finishCycle_eq (t : State) : finishCycle t = { t with
    dt := if t.phase = .running then countDown t.dt else t.dt,
    st := if t.phase = .running then countDown t.st else t.st } := by
  unfold finishCycle
  cases h : t.phase <;> simp only [State.timerStep, reduceCtorEq, if_false, if_true] <;> rw [← h]

theorem countDown_toNat (b : Byte) : (countDown b).toNat = b.toNat - 1 := by
  unfold countDown
  by_cases h : b = 0
  · simp [h]
  · have : b.toNat ≠ 0 := fun e => h (BitVec.eq_of_toNat_eq (by simpa using e))
    have := b.isLt
    rw [if_neg h, BitVec.toNat_sub]; simp; omega

end Sys2Proof.Machine
end

