-- ==== Sys2Proof/Laws/Framebuffer.lean ====
section
/-! SUPPORT. The framebuffer: what inverting a cell does, what a draw does, and the canonical form. -/

namespace Sys2Proof.Machine

namespace Framebuffer

theorem mem_insert (fb : Framebuffer) (p q : Pixel) : q ∈ insert fb p ↔ q = p ∨ q ∈ fb := by
  induction fb with
  | nil => simp [insert]
  | cons r fb ih =>
    simp only [insert]
    split <;> simp [ih, or_left_comm]

/-- Inverting a cell inverts that cell and no other. No premise on the list. -/
theorem cell_flip (fb : Framebuffer) (p q : Pixel) :
    (flip fb p).cell q = if q = p then !fb.cell q else fb.cell q := by
  unfold flip cell
  by_cases h : fb.contains p = true
  · rw [if_pos h]
    by_cases hq : q = p
    · subst hq; simp at h; simp [h]
    · simp [hq]
  · rw [if_neg h]
    by_cases hq : q = p
    · subst hq; simp at h; simp [mem_insert, h]
    · simp [hq, mem_insert]

theorem before_trans {p q r : Pixel} (h1 : Pixel.before p q = true) (h2 : Pixel.before q r = true) :
    Pixel.before p r = true := by
  simp [Pixel.before] at *; omega

theorem before_total {p q : Pixel} (h : p ≠ q) (hn : ¬ Pixel.before p q = true) :
    Pixel.before q p = true := by
  obtain ⟨a, b⟩ := p; obtain ⟨c, d⟩ := q
  simp [Pixel.before, Prod.ext_iff] at *; omega

theorem sorted_insert (fb : Framebuffer) (p : Pixel)
    (hs : fb.Pairwise fun p q => Pixel.before p q = true) (hp : p ∉ fb) :
    (insert fb p).Pairwise fun p q => Pixel.before p q = true := by
  induction fb with
  | nil => simp [insert]
  | cons q fb ih =>
    obtain ⟨h1, h2⟩ := List.pairwise_cons.mp hs
    have hq : p ≠ q := fun h => hp (by simp [h])
    simp only [insert]
    split
    · rename_i hlt
      refine List.pairwise_cons.mpr ⟨?_, hs⟩
      intro e he
      rcases List.mem_cons.mp he with rfl | he
      · exact hlt
      · exact before_trans hlt (h1 e he)
    · rename_i hlt
      refine List.pairwise_cons.mpr ⟨?_, ih h2 fun h => hp (by simp [h])⟩
      intro e he
      rcases (mem_insert _ _ _).mp he with rfl | he
      · exact before_total hq hlt
      · exact h1 e he

theorem wf_iff (c : Config) (fb : Framebuffer) : wf c fb = true ↔
    fb.Pairwise (fun p q => Pixel.before p q = true) ∧ ∀ p ∈ fb, p.1 < c.fbW ∧ p.2 < c.fbH := by
  simp [wf]

/-- Inverting a cell of the grid keeps the canonical form. -/
theorem wf_flip (c : Config) (fb : Framebuffer) (p : Pixel) (hx : p.1 < c.fbW) (hy : p.2 < c.fbH)
    (h : wf c fb = true) : wf c (flip fb p) = true := by
  rw [wf_iff] at *
  unfold flip cell
  split
  · exact ⟨h.1.filter _, fun q hq => h.2 q (List.mem_of_mem_filter hq)⟩
  · rename_i hp
    refine ⟨sorted_insert fb p h.1 (by simpa using hp), fun q hq => ?_⟩
    rcases (mem_insert _ _ _).mp hq with rfl | hq
    · exact ⟨hx, hy⟩
    · exact h.2 q hq

end Framebuffer

theorem foldl_plot_cell (ps : List Pixel) (d : Framebuffer × Bool) (q : Pixel) :
    (ps.foldl plot d).1.cell q = (d.1.cell q ^^ decide (ps.count q % 2 = 1)) := by
  induction ps generalizing d with
  | nil => simp
  | cons p ps ih =>
    rw [List.foldl_cons, ih, plot, Framebuffer.cell_flip, List.count_cons]
    by_cases h : q = p
    · subst h
      rcases Nat.mod_two_eq_zero_or_one (ps.count q) with h0 | h0 <;>
        simp [h0, Nat.add_mod]
    · simp [h, Ne.symm h]

/-- What drawing set bits at cells `ps` leaves in a cell: inverted once for each time it is a target. -/
theorem drawPixels_cell (fb : Framebuffer) (ps : List Pixel) (q : Pixel) :
    (drawPixels fb ps).1.cell q = (fb.cell q ^^ decide (ps.count q % 2 = 1)) :=
  foldl_plot_cell ps (fb, false) q

theorem foldl_plot_collision (ps : List Pixel) (d : Framebuffer × Bool) (h : ps.Nodup) :
    (ps.foldl plot d).2 = (d.2 || ps.any d.1.cell) := by
  induction ps generalizing d with
  | nil => simp
  | cons p ps ih =>
    obtain ⟨hp, hn⟩ := List.nodup_cons.mp h
    rw [List.foldl_cons, ih _ hn, plot, List.any_cons, Bool.or_assoc]
    congr 2
    apply Bool.eq_iff_iff.mpr
    simp only [List.any_eq_true]
    constructor <;> rintro ⟨q, hq, hc⟩ <;> refine ⟨q, hq, ?_⟩ <;>
      have : q ≠ p := (fun e => hp (e ▸ hq)) <;> simpa [Framebuffer.cell_flip, this] using hc

/-- The collision of a draw whose cells are all different: some cell was set before (R214). -/
theorem drawPixels_collision (fb : Framebuffer) (ps : List Pixel) (h : ps.Nodup) :
    (drawPixels fb ps).2 = ps.any fb.cell := by
  rw [drawPixels, foldl_plot_collision _ _ h]; simp

theorem drawPixels_wf (c : Config) (fb : Framebuffer) (ps : List Pixel)
    (hp : ∀ p ∈ ps, p.1 < c.fbW ∧ p.2 < c.fbH) (h : Framebuffer.wf c fb = true) :
    Framebuffer.wf c (drawPixels fb ps).1 = true := by
  suffices H : ∀ d : Framebuffer × Bool, Framebuffer.wf c d.1 = true →
      Framebuffer.wf c (ps.foldl plot d).1 = true from H (fb, false) h
  induction ps with
  | nil => exact fun _ hd => hd
  | cons p ps ih =>
    intro d hd
    have := hp p (by simp)
    exact ih (fun q hq => hp q (by simp [hq])) _ (Framebuffer.wf_flip c d.1 p this.1 this.2 hd)

/-- The cells of a sprite: one for each set bit (R212, R213). -/
theorem State.mem_spritePixels (s : State) (x y n : Nat) (p : Pixel) :
    p ∈ s.spritePixels x y n ↔ ∃ r < n, ∃ k < 8,
      (s.memRead (s.i.toNat + r)).getLsbD (7 - k) = true ∧ p = targetCell s.config x y r k := by
  simp only [State.spritePixels, spriteRow, List.mem_flatMap, List.mem_map, List.mem_filter, List.mem_range]
  constructor
  · rintro ⟨r, hr, k, ⟨hk, hb⟩, rfl⟩; exact ⟨r, hr, k, hk, hb, rfl⟩
  · rintro ⟨r, hr, k, hk, hb, rfl⟩; exact ⟨r, hr, k, ⟨hk, hb⟩, rfl⟩

/-- On a framebuffer of at least 8 x 15 cells the set bits of a sprite have different cells (R217). -/
theorem State.spritePixels_nodup (s : State) (x y n : Nat) (hn : n < 16) (hw : 8 ≤ s.config.fbW)
    (hh : 15 ≤ s.config.fbH) : (s.spritePixels x y n).Nodup := by
  unfold State.spritePixels spriteRow
  rw [List.nodup_flatMap]
  refine ⟨fun r _ => List.Nodup.map_on (fun a ha b hb h => ?_) (List.Nodup.filter _ List.nodup_range),
    List.Pairwise.imp_of_mem (fun {a b} ha hb hab p hp hq => ?_) (List.nodup_range (n := n))⟩
  · simp only [List.mem_filter, List.mem_range] at ha hb
    have h : x + a ≡ x + b [MOD s.config.fbW] := congrArg Prod.fst h
    exact (Nat.ModEq.add_left_cancel' x h).eq_of_lt_of_lt (by omega) (by omega)
  · simp only [List.mem_range] at ha hb
    simp only [List.mem_map] at hp hq
    obtain ⟨k, -, rfl⟩ := hp
    obtain ⟨k', -, h⟩ := hq
    have h : y + b ≡ y + a [MOD s.config.fbH] := congrArg Prod.snd h
    exact hab ((Nat.ModEq.add_left_cancel' y h).eq_of_lt_of_lt (by omega) (by omega)).symm

/-- The sprite depends on I, memory and the parameters only. -/
theorem State.spritePixels_congr (s t : State) (x y n : Nat) (hi : t.i = s.i) (hc : t.config = s.config)
    (hm : ∀ a, t.memRead a = s.memRead a) : t.spritePixels x y n = s.spritePixels x y n := by
  unfold State.spritePixels; simp only [hi, hc, hm]

/-- Every cell of a sprite lies in the grid. -/
theorem State.spritePixels_inside (s : State) (x y n : Nat) (hc : s.config.Wf) :
    ∀ p ∈ s.spritePixels x y n, p.1 < s.config.fbW ∧ p.2 < s.config.fbH := by
  intro p hp
  obtain ⟨r, -, k, -, -, rfl⟩ := (s.mem_spritePixels x y n p).mp hp
  exact ⟨Nat.mod_lt _ hc.1, Nat.mod_lt _ hc.2⟩

end Sys2Proof.Machine
end

