-- ==== Sys2Proof/Laws/HostInterface.lean ====
section
/-! SUPPORT. The image copy of load_program (70_reset_and_hazards.md R302), and memory after reset (R55). -/

namespace Sys2Proof.Machine

/-- Copying bytes changes memory only, and keeps its canonical form. -/
theorem copyBytes_eq (b : List Byte) (n : Nat) (s : State) : ∃ m, copyBytes b n s = { s with mem := m } ∧
    (Memory.wf s.config s.mem = true → Memory.wf s.config m = true) := by
  induction b generalizing n s with
  | nil => exact ⟨_, rfl, id⟩
  | cons a b ih =>
    obtain ⟨m, h, hw⟩ := ih (n + 1) (s.memWrite n a)
    exact ⟨m, h, fun h => hw (s.wf_memWrite _ _ h)⟩

/-- Memory after copying bytes that fit: each byte at its place, every other byte as before. -/
theorem memRead_copyBytes (b : List Byte) (n : Nat) (s : State) (hn : n + b.length ≤ 4096) :
    (∀ (k : Nat) (h : k < b.length), (copyBytes b n s).memRead (n + k) = b[k]) ∧
    ∀ a, (∀ k < b.length, a % 4096 ≠ (n + k) % 4096) → (copyBytes b n s).memRead a = s.memRead a := by
  induction b generalizing n s with
  | nil => exact ⟨fun k h => absurd h (by simp), fun _ _ => rfl⟩
  | cons c b ih =>
    simp only [List.length_cons] at hn
    obtain ⟨h1, h2⟩ := ih (n + 1) (s.memWrite n c) (by omega)
    refine ⟨fun k hk => ?_, fun a ha => ?_⟩
    · cases k with
      | zero =>
        rw [copyBytes, h2 _ fun j hj => by omega, State.memRead_memWrite, if_pos (by omega)]; rfl
      | succ k =>
        have := h1 k (by simpa using hk)
        rw [copyBytes, show n + (k + 1) = n + 1 + k by omega, this]; rfl
    · rw [copyBytes, h2, State.memRead_memWrite, if_neg (by simpa using ha 0 (by simp))]
      intro k hk
      have := ha (k + 1) (by simpa using hk)
      rwa [show n + (k + 1) = n + 1 + k by omega] at this

/-- What an action of the host does to the run: an accepted one is its effect and leaves the mark, a refused one
leaves the machine and marks the run, for good (R306). -/
theorem Run.act_cases (r : Run) (a : HostAction) :
    (∃ t, hostAction a r.machine = .next t ∧ r.act a = { r with machine := t }) ∨
    (∃ why, hostAction a r.machine = .refused why ∧ r.act a = { r with mark := some (r.mark.getD why) }) := by
  cases h : hostAction a r.machine with
  | next t => exact .inl ⟨t, rfl, by simp only [Run.act, h]⟩
  | fault f => exact nomatch f
  | refused why => refine .inr ⟨why, rfl, ?_⟩; simp only [Run.act, h]; cases r.mark <;> rfl

@[simp] theorem Run.acts_nil (r : Run) : r.acts [] = r := rfl
@[simp] theorem Run.acts_cons (r : Run) (a : HostAction) (as : List HostAction) :
    r.acts (a :: as) = (r.act a).acts as := rfl

/-- The font in the reset contents: byte j of glyph g stands at 5g + j (R225). -/
theorem Memory.initial_glyph (c : Config) (g j : Nat) (hg : g < 16) (hj : j < 5) :
    Memory.initial c (5 * g + j) = (c.font[g]'hg)[j]'hj := by
  have h1 : (5 * g + j) / 5 = g := by omega
  have h2 : (5 * g + j) % 5 = j := by omega
  simp only [Memory.initial, show 5 * g + j < 80 by omega, dif_pos, h1, h2]

theorem Memory.initial_above (c : Config) (a : Nat) (h : 80 ≤ a) : Memory.initial c a = 0 :=
  dif_neg (by omega)

/-- Memory that lists nothing reads as its reset contents. -/
theorem State.memRead_of_nil (s : State) (a : Nat) (h : s.mem = []) (ha : a < 4096) :
    s.memRead a = Memory.initial s.config a := by
  simp [State.memRead, Memory.read, h, Memory.lookup, effAddr, Nat.mod_eq_of_lt ha]

end Sys2Proof.Machine
end

