-- ==== Sys2Proof/Laws/PerInstr.lean ====
section
/-! SUPPORT. The family EncodesInOwnRow: an instruction's word matches a row of the opcode table that bears
its own mnemonic (30_encoding.md R95). One lemma per constructor. -/

namespace Sys2Proof

/-! ### What a mask keeps of a layout -/

theorem getLsbD_maskF000 (i : Nat) (h : i < 16) : (0xF000 : Word).getLsbD i = decide (12 ≤ i) := by
  revert i; decide
theorem getLsbD_maskF0FF (i : Nat) (h : i < 16) : (0xF0FF : Word).getLsbD i = decide (i < 8 ∨ 12 ≤ i) := by
  revert i; decide
theorem getLsbD_maskF00F (i : Nat) (h : i < 16) : (0xF00F : Word).getLsbD i = decide (i < 4 ∨ 12 ≤ i) := by
  revert i; decide

theorem layoutNNN_and_F000 (op : Nibble) (a : Addr) : layoutNNN op a &&& 0xF000 = layoutNNN op 0 := by
  apply BitVec.eq_of_getLsbD_eq; intro i hi
  rw [BitVec.getLsbD_and, getLsbD_maskF000 i hi, getLsbD_layoutNNN, getLsbD_layoutNNN]
  by_cases h : i < 12 <;> simp [h]
  omega

theorem layoutXNN_and_F000 (op : Nibble) (x : RegIdx) (nn : Byte) :
    layoutXNN op x nn &&& 0xF000 = layoutXNN op 0 0 := by
  apply BitVec.eq_of_getLsbD_eq; intro i hi
  rw [BitVec.getLsbD_and, getLsbD_maskF000 i hi, getLsbD_layoutXNN, getLsbD_layoutXNN]
  by_cases h : i < 8
  · simp [h]; omega
  · by_cases h' : i < 12 <;> simp [h, h']
    omega

theorem layoutXNN_and_F0FF (op : Nibble) (x : RegIdx) (nn : Byte) :
    layoutXNN op x nn &&& 0xF0FF = layoutXNN op 0 nn := by
  apply BitVec.eq_of_getLsbD_eq; intro i hi
  rw [BitVec.getLsbD_and, getLsbD_maskF0FF i hi, getLsbD_layoutXNN, getLsbD_layoutXNN]
  by_cases h : i < 8
  · simp [h]
  · by_cases h' : i < 12 <;> simp [h, h']
    omega

theorem layoutXYN_and_F00F (op : Nibble) (x y : RegIdx) (n : Nibble) :
    layoutXYN op x y n &&& 0xF00F = layoutXYN op 0 0 n := by
  apply BitVec.eq_of_getLsbD_eq; intro i hi
  rw [BitVec.getLsbD_and, getLsbD_maskF00F i hi, getLsbD_layoutXYN, getLsbD_layoutXYN]
  by_cases h : i < 4
  · simp [h]
  · by_cases h' : i < 8
    · simp [h, h']; omega
    · by_cases h'' : i < 12 <;> simp [h, h', h'']
      omega

theorem layoutXYN_and_F000 (op : Nibble) (x y : RegIdx) (n : Nibble) :
    layoutXYN op x y n &&& 0xF000 = layoutXYN op 0 0 0 := by
  apply BitVec.eq_of_getLsbD_eq; intro i hi
  rw [BitVec.getLsbD_and, getLsbD_maskF000 i hi, getLsbD_layoutXYN, getLsbD_layoutXYN]
  by_cases h : i < 4
  · simp [h]; omega
  · by_cases h' : i < 8
    · simp [h, h']; omega
    · by_cases h'' : i < 12 <;> simp [h, h', h'']
      omega

end Sys2Proof

namespace Sys2Proof.Laws.EncodesInOwnRow

/-- The word of `i` matches a row of the table with `i`'s mnemonic. -/
def Statement (i : Instr) : Prop :=
  ∃ r ∈ opcodeTable, r.mnemonic = i.mnemonic ∧ r.matchesWord (encode i) = true

theorem cls : Statement (.cls) :=
  ⟨⟨"CLS", 0x00E0, 0xFFFF⟩, by decide, rfl, by decide⟩

theorem ret : Statement (.ret) :=
  ⟨⟨"RET", 0x00EE, 0xFFFF⟩, by decide, rfl, by decide⟩

theorem jp (nnn : Addr) : Statement (.jp nnn) :=
  ⟨⟨"JP", 0x1000, 0xF000⟩, by decide, rfl, by
    rw [OpcodeRow.matchesWord, encode, layoutNNN_and_F000]; rfl⟩

theorem call (nnn : Addr) : Statement (.call nnn) :=
  ⟨⟨"CALL", 0x2000, 0xF000⟩, by decide, rfl, by
    rw [OpcodeRow.matchesWord, encode, layoutNNN_and_F000]; rfl⟩

theorem seImm (x : RegIdx) (nn : Byte) : Statement (.seImm x nn) :=
  ⟨⟨"SE_imm", 0x3000, 0xF000⟩, by decide, rfl, by
    rw [OpcodeRow.matchesWord, encode, layoutXNN_and_F000]; rfl⟩

theorem sneImm (x : RegIdx) (nn : Byte) : Statement (.sneImm x nn) :=
  ⟨⟨"SNE_imm", 0x4000, 0xF000⟩, by decide, rfl, by
    rw [OpcodeRow.matchesWord, encode, layoutXNN_and_F000]; rfl⟩

theorem seReg (x : RegIdx) (y : RegIdx) : Statement (.seReg x y) :=
  ⟨⟨"SE_reg", 0x5000, 0xF00F⟩, by decide, rfl, by
    rw [OpcodeRow.matchesWord, encode, layoutXYN_and_F00F]; rfl⟩

theorem ldImm (x : RegIdx) (nn : Byte) : Statement (.ldImm x nn) :=
  ⟨⟨"LD_imm", 0x6000, 0xF000⟩, by decide, rfl, by
    rw [OpcodeRow.matchesWord, encode, layoutXNN_and_F000]; rfl⟩

theorem addImm (x : RegIdx) (nn : Byte) : Statement (.addImm x nn) :=
  ⟨⟨"ADD_imm", 0x7000, 0xF000⟩, by decide, rfl, by
    rw [OpcodeRow.matchesWord, encode, layoutXNN_and_F000]; rfl⟩

theorem ldReg (x : RegIdx) (y : RegIdx) : Statement (.ldReg x y) :=
  ⟨⟨"LD_reg", 0x8000, 0xF00F⟩, by decide, rfl, by
    rw [OpcodeRow.matchesWord, encode, layoutXYN_and_F00F]; rfl⟩

theorem orReg (x : RegIdx) (y : RegIdx) : Statement (.orReg x y) :=
  ⟨⟨"OR", 0x8001, 0xF00F⟩, by decide, rfl, by
    rw [OpcodeRow.matchesWord, encode, layoutXYN_and_F00F]; rfl⟩

theorem andReg (x : RegIdx) (y : RegIdx) : Statement (.andReg x y) :=
  ⟨⟨"AND", 0x8002, 0xF00F⟩, by decide, rfl, by
    rw [OpcodeRow.matchesWord, encode, layoutXYN_and_F00F]; rfl⟩

theorem xorReg (x : RegIdx) (y : RegIdx) : Statement (.xorReg x y) :=
  ⟨⟨"XOR", 0x8003, 0xF00F⟩, by decide, rfl, by
    rw [OpcodeRow.matchesWord, encode, layoutXYN_and_F00F]; rfl⟩

theorem addReg (x : RegIdx) (y : RegIdx) : Statement (.addReg x y) :=
  ⟨⟨"ADD_reg", 0x8004, 0xF00F⟩, by decide, rfl, by
    rw [OpcodeRow.matchesWord, encode, layoutXYN_and_F00F]; rfl⟩

theorem sub (x : RegIdx) (y : RegIdx) : Statement (.sub x y) :=
  ⟨⟨"SUB", 0x8005, 0xF00F⟩, by decide, rfl, by
    rw [OpcodeRow.matchesWord, encode, layoutXYN_and_F00F]; rfl⟩

theorem shr (x : RegIdx) (y : RegIdx) : Statement (.shr x y) :=
  ⟨⟨"SHR", 0x8006, 0xF00F⟩, by decide, rfl, by
    rw [OpcodeRow.matchesWord, encode, layoutXYN_and_F00F]; rfl⟩

theorem subn (x : RegIdx) (y : RegIdx) : Statement (.subn x y) :=
  ⟨⟨"SUBN", 0x8007, 0xF00F⟩, by decide, rfl, by
    rw [OpcodeRow.matchesWord, encode, layoutXYN_and_F00F]; rfl⟩

theorem shl (x : RegIdx) (y : RegIdx) : Statement (.shl x y) :=
  ⟨⟨"SHL", 0x800E, 0xF00F⟩, by decide, rfl, by
    rw [OpcodeRow.matchesWord, encode, layoutXYN_and_F00F]; rfl⟩

theorem sneReg (x : RegIdx) (y : RegIdx) : Statement (.sneReg x y) :=
  ⟨⟨"SNE_reg", 0x9000, 0xF00F⟩, by decide, rfl, by
    rw [OpcodeRow.matchesWord, encode, layoutXYN_and_F00F]; rfl⟩

theorem ldI (nnn : Addr) : Statement (.ldI nnn) :=
  ⟨⟨"LD_I", 0xA000, 0xF000⟩, by decide, rfl, by
    rw [OpcodeRow.matchesWord, encode, layoutNNN_and_F000]; rfl⟩

theorem jpV0 (nnn : Addr) : Statement (.jpV0 nnn) :=
  ⟨⟨"JP_V0", 0xB000, 0xF000⟩, by decide, rfl, by
    rw [OpcodeRow.matchesWord, encode, layoutNNN_and_F000]; rfl⟩

theorem rnd (x : RegIdx) (nn : Byte) : Statement (.rnd x nn) :=
  ⟨⟨"RND", 0xC000, 0xF000⟩, by decide, rfl, by
    rw [OpcodeRow.matchesWord, encode, layoutXNN_and_F000]; rfl⟩

theorem drw (x : RegIdx) (y : RegIdx) (n : Nibble) : Statement (.drw x y n) :=
  ⟨⟨"DRW", 0xD000, 0xF000⟩, by decide, rfl, by
    rw [OpcodeRow.matchesWord, encode, layoutXYN_and_F000]; rfl⟩

theorem skp (x : RegIdx) : Statement (.skp x) :=
  ⟨⟨"SKP", 0xE09E, 0xF0FF⟩, by decide, rfl, by
    rw [OpcodeRow.matchesWord, encode, layoutXNN_and_F0FF]; rfl⟩

theorem sknp (x : RegIdx) : Statement (.sknp x) :=
  ⟨⟨"SKNP", 0xE0A1, 0xF0FF⟩, by decide, rfl, by
    rw [OpcodeRow.matchesWord, encode, layoutXNN_and_F0FF]; rfl⟩

theorem ldVxDt (x : RegIdx) : Statement (.ldVxDt x) :=
  ⟨⟨"LD_Vx_DT", 0xF007, 0xF0FF⟩, by decide, rfl, by
    rw [OpcodeRow.matchesWord, encode, layoutXNN_and_F0FF]; rfl⟩

theorem ldVxK (x : RegIdx) : Statement (.ldVxK x) :=
  ⟨⟨"LD_Vx_K", 0xF00A, 0xF0FF⟩, by decide, rfl, by
    rw [OpcodeRow.matchesWord, encode, layoutXNN_and_F0FF]; rfl⟩

theorem ldDtVx (x : RegIdx) : Statement (.ldDtVx x) :=
  ⟨⟨"LD_DT_Vx", 0xF015, 0xF0FF⟩, by decide, rfl, by
    rw [OpcodeRow.matchesWord, encode, layoutXNN_and_F0FF]; rfl⟩

theorem ldStVx (x : RegIdx) : Statement (.ldStVx x) :=
  ⟨⟨"LD_ST_Vx", 0xF018, 0xF0FF⟩, by decide, rfl, by
    rw [OpcodeRow.matchesWord, encode, layoutXNN_and_F0FF]; rfl⟩

theorem addIVx (x : RegIdx) : Statement (.addIVx x) :=
  ⟨⟨"ADD_I_Vx", 0xF01E, 0xF0FF⟩, by decide, rfl, by
    rw [OpcodeRow.matchesWord, encode, layoutXNN_and_F0FF]; rfl⟩

theorem ldFVx (x : RegIdx) : Statement (.ldFVx x) :=
  ⟨⟨"LD_F_Vx", 0xF029, 0xF0FF⟩, by decide, rfl, by
    rw [OpcodeRow.matchesWord, encode, layoutXNN_and_F0FF]; rfl⟩

theorem ldBVx (x : RegIdx) : Statement (.ldBVx x) :=
  ⟨⟨"LD_B_Vx", 0xF033, 0xF0FF⟩, by decide, rfl, by
    rw [OpcodeRow.matchesWord, encode, layoutXNN_and_F0FF]; rfl⟩

theorem ldIMemVx (x : RegIdx) : Statement (.ldIMemVx x) :=
  ⟨⟨"LD_I_mem_Vx", 0xF055, 0xF0FF⟩, by decide, rfl, by
    rw [OpcodeRow.matchesWord, encode, layoutXNN_and_F0FF]; rfl⟩

theorem ldVxIMem (x : RegIdx) : Statement (.ldVxIMem x) :=
  ⟨⟨"LD_Vx_I_mem", 0xF065, 0xF0FF⟩, by decide, rfl, by
    rw [OpcodeRow.matchesWord, encode, layoutXNN_and_F0FF]; rfl⟩

end Sys2Proof.Laws.EncodesInOwnRow
end

