-- ==== Sys2Proof/Tests/Slice0.lean ====
section
/-! SUPPORT. Tests. Every expected value comes from the spec: a name such as ALU-4 is a vector of
95_test_vectors.md, the decode words are written from the patterns of 30_encoding.md R95. A vector is run as the
spec runs it: the word is placed at pc and one step is taken. -/

namespace Sys2Proof.Tests

open Sys2Proof Sys2Proof.Machine

/-! ## Helpers -/

/-- The machine after reset with an image loaded (all zeros): the start state of every vector. -/
def start : State := { State.reset with loaded := true }

/-- The start state of a machine with other parameters. -/
def startWith (c : Config) : State := { State.resetWith c with loaded := true }

/-- Registers set by a row of a vector. -/
def regs (l : List (RegIdx × Byte)) (s : State) : State := l.foldl (fun s p => s.writeV p.1 p.2) s

def nextOf : Host.Outcome State Fault Refusal → Option State
  | .next t => some t
  | .fault _ => none
  | .refused _ => none

def refusalOf : Host.Outcome State Fault Refusal → Option Refusal
  | .next _ => none
  | .fault _ => none
  | .refused r => some r

/-- One step with the word `w` at pc. -/
def run (w : Nat) (s : State) : Option State := nextOf (step (s.withFetchWord 16 w))

/-- The registers a vector shows, after one step with the word `w` at pc. -/
def runV (w : Nat) (s : State) (rs : List RegIdx) : Option (List Byte) := (run w s).map fun t => rs.map t.readV

def runPc (w : Nat) (s : State) : Option Word := (run w s).map (·.pc)

def runI (w : Nat) (s : State) : Option Word := (run w s).map (·.i)

/-- `n` bytes of memory from `a`, after one step. -/
def runMem (w : Nat) (s : State) (a n : Nat) : Option (List Byte) :=
  (run w s).map fun t => (List.range n).map fun k => t.memRead (a + k)

/-- The framebuffer and VF after one step. -/
def runFb (w : Nat) (s : State) : Option (Framebuffer × Byte) := (run w s).map fun t => (t.fb, t.readV vf)

/-- Phase, pc and fault record after one step. -/
def runFault (w : Nat) (s : State) : Option (Phase × Word × Option FaultRecord) :=
  (run w s).map fun t => (t.phase, t.pc, t.faultRecord)

/-! ## WellFormed: the checks, each with an ill-formed term it refuses -/

theorem test_wf_family0_refused : legalWord 0x0000 = false ∧ legalWord 0x0123 = false := by decide
theorem test_wf_compare_refused : legalWord 0x5121 = false ∧ legalWord 0x9011 = false := by decide
theorem test_wf_family8_refused : legalWord 0x8008 = false ∧ legalWord 0x800F = false := by decide
theorem test_wf_familyE_refused : legalWord 0xE09F = false ∧ legalWord 0xE0A2 = false ∧ legalWord 0xE000 = false := by
  decide
theorem test_wf_familyF_refused : legalWord 0xF000 = false ∧ legalWord 0xF019 = false ∧ legalWord 0xF075 = false ∧
    legalWord 0xFFFF = false := by decide
theorem test_wf_table_has_34_rows : opcodeTable.length = 34 := by decide
theorem test_wf_config_refused : ¬ ({ defaultConfig with fbW := 0 } : Config).Wf ∧
    ¬ ({ defaultConfig with fbH := 0 } : Config).Wf ∧ defaultConfig.Wf := by decide
/-- A listed font byte equal to its reset value, an unsorted list and an address beyond memory are refused. -/
theorem test_wf_memory_refused : Memory.wf defaultConfig [(0x000, 0xF0)] = false ∧
    Memory.wf defaultConfig [(0x301, 1), (0x300, 1)] = false ∧ Memory.wf defaultConfig [(0x1000, 1)] = false := by decide
theorem test_wf_framebuffer_refused : Framebuffer.wf defaultConfig [(64, 0)] = false ∧
    Framebuffer.wf defaultConfig [(0, 32)] = false ∧ Framebuffer.wf defaultConfig [(0, 1), (5, 0)] = false := by decide

/-! ## Decoding: every constructor, by a word written out from its pattern -/

theorem test_decode_control : decodeWord 0x00EE = .ok .ret ∧ decodeWord 0x1ABC = .ok (.jp 0xABC) ∧
    decodeWord 0x2300 = .ok (.call 0x300) ∧ decodeWord 0x3342 = .ok (.seImm 3 0x42) ∧
    decodeWord 0x4342 = .ok (.sneImm 3 0x42) ∧ decodeWord 0x5120 = .ok (.seReg 1 2) ∧
    decodeWord 0x9120 = .ok (.sneReg 1 2) ∧ decodeWord 0xB300 = .ok (.jpV0 0x300) := by decide
theorem test_decode_arith : decodeWord 0x6A42 = .ok (.ldImm 0xA 0x42) ∧ decodeWord 0x7003 = .ok (.addImm 0 3) ∧
    decodeWord 0x8120 = .ok (.ldReg 1 2) ∧ decodeWord 0x8121 = .ok (.orReg 1 2) ∧
    decodeWord 0x8122 = .ok (.andReg 1 2) ∧ decodeWord 0x8123 = .ok (.xorReg 1 2) ∧
    decodeWord 0x8124 = .ok (.addReg 1 2) := by decide
theorem test_decode_arith_rest : decodeWord 0x8125 = .ok (.sub 1 2) ∧ decodeWord 0x8126 = .ok (.shr 1 2) ∧
    decodeWord 0x8127 = .ok (.subn 1 2) ∧ decodeWord 0x812E = .ok (.shl 1 2) ∧
    decodeWord 0xC00F = .ok (.rnd 0 0x0F) := by decide
theorem test_decode_index : decodeWord 0xA123 = .ok (.ldI 0x123) ∧ decodeWord 0xF21E = .ok (.addIVx 2) ∧
    decodeWord 0xF029 = .ok (.ldFVx 0) ∧ decodeWord 0xF033 = .ok (.ldBVx 0) ∧
    decodeWord 0xFF55 = .ok (.ldIMemVx 0xF) ∧ decodeWord 0xF265 = .ok (.ldVxIMem 2) := by decide
theorem test_decode_display : decodeWord 0x00E0 = .ok .cls ∧ decodeWord 0xD125 = .ok (.drw 1 2 5) := by decide
theorem test_decode_keypad : decodeWord 0xE59E = .ok (.skp 5) ∧ decodeWord 0xE5A1 = .ok (.sknp 5) ∧
    decodeWord 0xF30A = .ok (.ldVxK 3) := by decide
theorem test_decode_timers : decodeWord 0xF607 = .ok (.ldVxDt 6) ∧ decodeWord 0xF515 = .ok (.ldDtVx 5) ∧
    decodeWord 0xF518 = .ok (.ldStVx 5) := by decide
theorem test_decode_rejects : decodeWord 0x00E1 = .error (.family0 0x00E1) ∧
    decodeWord 0x9011 = .error (.compareReg 0x9011) ∧ decodeWord 0x8008 = .error (.family8 0x8008) ∧
    decodeWord 0xE09F = .error (.familyE 0xE09F) ∧ decodeWord 0xF019 = .error (.familyF 0xF019) := by decide
/-- The high byte stands first; one byte is no instruction; the bytes after the word are left. -/
theorem test_decode_bytes : decode [0x12, 0x00, 0xAA] = .ok (.jp 0x200, [0xAA]) ∧ decode [0x12] = .error .tooShort := by
  decide
theorem test_decode_table_word : decodeTableWord 16 0xD125 = some (.drw 1 2 5) ∧ decodeTableWord 16 0x0123 = none := by
  decide

/-! ## The cycle (CYC) -/

theorem test_CYC_1 : (run 0x00E0 { start with dt := 3, st := 1 }).map (fun t => (t.pc, t.dt, t.st, t.phase)) =
    some (0x202, 2, 0, .running) := by decide
theorem test_CYC_2 : (run 0x0123 { start with dt := 3 }).map (fun t => (t.pc, t.dt, t.phase, t.faultRecord)) =
    some (0x200, 3, .halted, some ⟨.decodeError, 0x200, 0x0123, none⟩) := by decide
theorem test_CYC_10 : (run 0x6001 { start with pc := 0xFFE }).map (fun t => (t.readV 0, t.pc)) =
    some (0x01, 0x000) := by decide
/-- The low byte comes from the font at address 0x000. -/
theorem test_CYC_11 : (nextOf (step ({ start with pc := 0xFFF }.memWrite 0xFFF 0x60))).map
    (fun t => (t.readV 0, t.pc)) = some (0xF0, 0x001) := by decide
theorem test_CYC_13 : refusalOf (step { start with phase := .halted }) = some .cycleInHalted := by decide
theorem test_CYC_14 : refusalOf (step State.reset) = some .cycleBeforeLoad := by decide
theorem test_CYC_16 : refusalOf (loadProgram [0x00] { start with phase := .running }) = some .loadOutOfOrder := by decide
/-- CYC-14 and CYC-16 on a run: the state is as it was, the mark is set and `reset()` does not clear it. -/
theorem test_refusal_mark : (Run.start.act .executeCycle) = { machine := State.reset, mark := some .cycleBeforeLoad } ∧
    (Run.start.acts [.loadProgram [0x12, 0x00], .loadProgram [0x00], .reset]).mark = some .loadOutOfOrder ∧
    (Run.start.acts [.loadProgram [0x12, 0x00], .executeCycle, .executeCycle]).mark = none := by decide
/-- A machine with nothing loaded, and one that has halted, make no safe run. -/
theorem test_refused_is_unsafe : ¬ Safe State.reset ∧ ¬ Safe { start with phase := .halted } :=
  ⟨fun h => (h 0 _ rfl).2 .cycleBeforeLoad rfl, fun h => (h 0 _ rfl).1 rfl⟩
theorem test_CYC_17 : (nextOf (resetCommand { start with phase := .halted, i := 7, mem := [(0, 0)] })) =
    some State.reset := by decide
theorem test_L1_1a : (nextOf (loadProgram [0xAB, 0xCD, 0xEF] State.reset)).map (fun t =>
    ([0x1FF, 0x200, 0x201, 0x202, 0x203].map t.memRead, t.loaded)) = some ([0, 0xAB, 0xCD, 0xEF, 0], true) := by decide
theorem test_L1_9 : ['1', '4', 'q', 'r', 'x', 'v', 'p'].map logicalKey =
    [some 0x1, some 0xC, some 0x4, some 0xD, some 0x0, some 0xF, none] := by decide

/-! ## Control transfer (CTRL) -/

/-- CTRL-1, CTRL-3 -/
theorem test_jp : runPc 0x1ABC start = some 0xABC ∧ runPc 0x1200 start = some 0x200 := by decide
/-- CTRL-5 -/
theorem test_call : (run 0x2300 { start with pc := 0xFFE }).map (fun t => (t.stack[0], t.sp, t.pc)) =
    some (0x000, 1, 0x300) := by decide
/-- CTRL-6 -/
theorem test_call_overflow : runFault 0x2300 { start with sp := 16 } =
    some (.halted, 0x200, some ⟨.stackOverflow, 0x200, 0x2300, none⟩) := by decide
/-- CTRL-7 -/
theorem test_ret : (run 0x00EE { start with pc := 0x300, sp := 1, stack := start.stack.set 0 0x202 }).map
    (fun t => (t.pc, t.sp)) = some (0x202, 0) := by decide
/-- CTRL-8 -/
theorem test_ret_underflow : runFault 0x00EE start =
    some (.halted, 0x200, some ⟨.stackUnderflow, 0x200, 0x00EE, none⟩) := by decide
/-- CTRL-9, CTRL-10 -/
theorem test_se_imm : runPc 0x3342 (regs [(3, 0x42)] start) = some 0x204 ∧
    runPc 0x3342 (regs [(3, 0x41)] start) = some 0x202 := by decide
/-- CTRL-21 -/
theorem test_se_imm_wraps : runPc 0x3000 { start with pc := 0xFFE } = some 0x002 := by decide
/-- CTRL-11, CTRL-12 -/
theorem test_sne_imm : runPc 0x4342 (regs [(3, 0x41)] start) = some 0x204 ∧
    runPc 0x4342 (regs [(3, 0x42)] start) = some 0x202 := by decide
/-- CTRL-13 to CTRL-15 -/
theorem test_se_reg : runPc 0x5120 (regs [(1, 7), (2, 7)] start) = some 0x204 ∧
    runPc 0x5120 (regs [(1, 7), (2, 8)] start) = some 0x202 ∧ runPc 0x5110 (regs [(1, 9)] start) = some 0x204 := by decide
/-- CTRL-16, CTRL-17 -/
theorem test_sne_reg : runPc 0x9120 (regs [(1, 7), (2, 8)] start) = some 0x204 ∧
    runPc 0x9120 (regs [(1, 7), (2, 7)] start) = some 0x202 := by decide
/-- CTRL-18, CTRL-19 -/
theorem test_jp_v0 : runPc 0xB300 (regs [(0, 0x10)] start) = some 0x310 ∧
    runPc 0xBFFF (regs [(0, 0xFF)] start) = some 0x0FE := by decide
/-- CTRL-20 -/
theorem test_jp_vx : runPc 0xB500 (regs [(0, 0x01), (5, 0x20)] (startWith { defaultConfig with jumpUsesVx := true })) =
    some 0x520 := by decide

/-! ## Arithmetic (ALU) -/

/-- ALU-1 -/
theorem test_ld_imm : runV 0x6A42 start [0xA] = some [0x42] := by decide
/-- ALU-2, ALU-3 -/
theorem test_add_imm : runV 0x7003 (regs [(0, 0x05)] start) [0] = some [0x08] ∧
    runV 0x7001 (regs [(0, 0xFF), (0xF, 0x55)] start) [0, 0xF] = some [0x00, 0x55] := by decide
/-- ALU-18 -/
theorem test_ld_reg : runV 0x8010 (regs [(1, 0x33)] start) [0, 1] = some [0x33, 0x33] := by decide
/-- ALU-4 to ALU-7 -/
theorem test_add_reg : runV 0x8014 (regs [(0, 0x05), (1, 0x0A)] start) [0, 0xF] = some [0x0F, 0] ∧
    runV 0x8014 (regs [(0, 0xFF), (1, 0x01)] start) [0, 0xF] = some [0x00, 1] ∧
    runV 0x8014 (regs [(0, 0x80), (1, 0x7F)] start) [0, 0xF] = some [0xFF, 0] ∧
    runV 0x8014 (regs [(0, 0xFF), (1, 0xFF)] start) [0, 0xF] = some [0xFE, 1] := by decide
/-- ALU-8 to ALU-10: X = Y, X = F, Y = F -/
theorem test_add_reg_overlap : runV 0x8224 (regs [(2, 0x81)] start) [2, 0xF] = some [0x02, 1] ∧
    runV 0x8F14 (regs [(0xF, 0x80), (1, 0x90)] start) [0xF] = some [1] ∧
    runV 0x80F4 (regs [(0, 0x10), (0xF, 0x05)] start) [0, 0xF] = some [0x15, 0] := by decide
/-- ALU-11 to ALU-13 -/
theorem test_sub : runV 0x8015 (regs [(0, 0x0A), (1, 0x03)] start) [0, 0xF] = some [0x07, 1] ∧
    runV 0x8015 (regs [(0, 0x03), (1, 0x0A)] start) [0, 0xF] = some [0xF9, 0] ∧
    runV 0x8015 (regs [(0, 0x44), (1, 0x44)] start) [0, 0xF] = some [0x00, 1] := by decide
/-- ALU-14 -/
theorem test_sub_into_vf : runV 0x8F15 (regs [(0xF, 0x03), (1, 0x0A)] start) [0xF] = some [0] := by decide
/-- ALU-15 to ALU-17 -/
theorem test_subn : runV 0x8017 (regs [(0, 0x03), (1, 0x0A)] start) [0, 0xF] = some [0x07, 1] ∧
    runV 0x8017 (regs [(0, 0x0A), (1, 0x03)] start) [0, 0xF] = some [0xF9, 0] ∧
    runV 0x8337 (regs [(3, 0x12)] start) [3, 0xF] = some [0x00, 1] := by decide
/-- ALU-19 -/
theorem test_or : runV 0x8011 (regs [(0, 0xF0), (1, 0x0F), (0xF, 0x77)] start) [0, 0xF] = some [0xFF, 0x77] := by decide
/-- ALU-20 -/
theorem test_or_clears_vf : runV 0x8011 (regs [(0, 0xF0), (1, 0x0F), (0xF, 0x77)]
    (startWith { defaultConfig with logicClearsVf := true })) [0, 0xF] = some [0xFF, 0] := by decide
/-- ALU-21 -/
theorem test_and : runV 0x8012 (regs [(0, 0xF0), (1, 0x3C)] start) [0] = some [0x30] := by decide
/-- ALU-22, ALU-23 -/
theorem test_xor : runV 0x8013 (regs [(0, 0xF0), (1, 0x3C)] start) [0] = some [0xCC] ∧
    runV 0x8443 (regs [(4, 0x5A)] start) [4] = some [0x00] := by decide
/-- ALU-24, ALU-25 and ALU-28 -/
theorem test_shr : runV 0x8006 (regs [(0, 0x05)] start) [0, 0xF] = some [0x02, 1] ∧
    runV 0x8006 (regs [(0, 0x04)] start) [0, 0xF] = some [0x02, 0] ∧
    runV 0x8FF6 (regs [(0xF, 0x03)] start) [0xF] = some [1] := by decide
/-- ALU-27 -/
theorem test_shr_of_vy : runV 0x8016 (regs [(0, 0x04), (1, 0x07)] start) [0, 0xF] = some [0x02, 0] ∧
    runV 0x8016 (regs [(0, 0x04), (1, 0x07)] (startWith { defaultConfig with shiftUsesVy := true })) [0, 0xF] =
      some [0x03, 1] := by decide
/-- ALU-29, ALU-30, ALU-32 -/
theorem test_shl : runV 0x800E (regs [(0, 0x81)] start) [0, 0xF] = some [0x02, 1] ∧
    runV 0x800E (regs [(0, 0x40)] start) [0, 0xF] = some [0x80, 0] ∧
    runV 0x8FFE (regs [(0xF, 0x81)] start) [0xF] = some [1] := by decide
/-- ALU-33 and ALU-35: the draw is given to the meaning, which takes any. -/
theorem test_rnd : (randomInto 0xAB 0 0x0F start).readV 0 = 0x0B ∧ (randomInto 0xAB 0 0xFF start).readV 0 = 0xAB := by
  decide
/-- ALU-34: whatever the draw -/
theorem test_rnd_mask_zero : ∀ r : Byte, (randomInto r 0 0x00 start).readV 0 = 0 := by decide

/-! ## Index and memory (MEM) -/

/-- MEM-1 -/
theorem test_ld_i : runI 0xA123 { start with i := 0xFFFF } = some 0x0123 := by decide
/-- MEM-2, MEM-4, MEM-3 in the default mode -/
theorem test_ld_f : runI 0xF029 (regs [(0, 0x0A)] start) = some 0x0032 ∧
    runI 0xF029 (regs [(0, 0x0F)] start) = some 0x004B ∧ runI 0xF029 (regs [(0, 0x1A)] start) = some 0x0032 := by decide
/-- MEM-3, the other modes -/
theorem test_ld_f_modes : runI 0xF029 (regs [(0, 0x1A)] (startWith { defaultConfig with fontIndexMode := .full })) =
      some 0x0082 ∧
    runFault 0xF029 (regs [(0, 0x1A)] (startWith { defaultConfig with fontIndexMode := .fault })) =
      some (.halted, 0x200, some ⟨.fontRange, 0x200, 0xF029, some 0x1A⟩) := by decide
/-- MEM-6, MEM-7 -/
theorem test_add_i : runI 0xF01E (regs [(0, 0x01)] { start with i := 0x0FFF }) = some 0x1000 ∧
    runI 0xF01E (regs [(0, 0x02)] { start with i := 0xFFFF }) = some 0x0001 := by decide
/-- MEM-5 -/
theorem test_add_i_leaves_vf : runV 0xF21E (regs [(2, 0x10), (0xF, 0x66)] { start with i := 0x300 }) [0xF] =
    some [0x66] := by decide
/-- MEM-8, MEM-13 -/
theorem test_ld_b : runMem 0xF033 (regs [(0, 0xFF)] { start with i := 0x300 }) 0x300 3 = some [2, 5, 5] ∧
    runMem 0xF033 (regs [(0, 0x2A)] { start with i := 0x1300 }) 0x300 3 = some [0, 4, 2] := by decide
/-- MEM-12 -/
theorem test_ld_b_wraps : runMem 0xF033 (regs [(0, 0x7B)] { start with i := 0xFFF }) 0xFFF 3 = some [1, 2, 3] := by decide
/-- MEM-16 and MEM-17 -/
theorem test_store : runMem 0xF055 (regs [(0, 0x99), (1, 0x88)] { start with i := 0x300 }) 0x300 2 = some [0x99, 0] ∧
    runMem 0xFF55 (regs ((List.range 16).map fun k => (BitVec.ofNat 4 k, BitVec.ofNat 8 k)) { start with i := 0x300 })
      0x300 16 = some [0, 1, 2, 3, 4, 5, 6, 7, 8, 9, 10, 11, 12, 13, 14, 15] := by decide
/-- MEM-14 and MEM-15 -/
theorem test_store_index : runI 0xF255 { start with i := 0x300 } = some 0x300 ∧
    runI 0xF255 { startWith { defaultConfig with loadStoreIncrementsI := true } with i := 0x300 } = some 0x303 := by
  decide
/-- MEM-18 and MEM-19 -/
theorem test_load : runV 0xF265 (copyBytes [1, 2, 3] 0x300 { start with i := 0x300 }) [0, 1, 2, 3] =
      some [1, 2, 3, 0] ∧
    runV 0xF165 ({ start with i := 0xFFF }.memWrite 0xFFF 0x11) [0, 1] = some [0x11, 0xF0] := by decide
/-- MEM-18 and MEM-21 -/
theorem test_load_index : runI 0xF265 { start with i := 0x300 } = some 0x300 ∧
    runI 0xF265 { startWith { defaultConfig with loadStoreIncrementsI := true } with i := 0x300 } = some 0x303 := by
  decide

/-! ## Display (DISP) -/

/-- DISP-1 -/
theorem test_cls : runFb 0x00E0 (regs [(0xF, 0x33)] { start with fb := [(0, 0), (63, 31)] }) = some ([], 0x33) := by
  decide
/-- DISP-4 (the start column 72 is taken mod 64), DISP-10 (the columns wrap) and DISP-5 (no rows) -/
theorem test_drw : runFb 0xD015 (regs [(0, 0x48)] { start with i := 0x005 }) =
      some ([(10, 0), (9, 1), (10, 1), (10, 2), (10, 3), (9, 4), (10, 4), (11, 4)], 0) ∧
    runFb 0xD011 (regs [(0, 0x3C)] ({ start with i := 0x300 }.memWrite 0x300 0xFF)) =
      some ([(0, 0), (1, 0), (2, 0), (3, 0), (60, 0), (61, 0), (62, 0), (63, 0)], 0) ∧
    runFb 0xD010 (regs [(0xF, 0x77)] { start with fb := [(4, 4)] }) = some ([(4, 4)], 0) := by decide
/-- DISP-7: a partial overlap (the second draw of the vector), from glyph 0's cells. -/
theorem test_drw_collision : runFb 0xD015 { start with i := 0x028, fb :=
    [(0, 0), (1, 0), (2, 0), (3, 0), (0, 1), (3, 1), (0, 2), (3, 2), (0, 3), (3, 3), (0, 4), (1, 4), (2, 4), (3, 4)] } =
    some ([(1, 2), (2, 2)], 1) := by decide
/-- DISP-12 -/
theorem test_overlay : (overlayWrite (0, 0) true start).fb = [] := by decide

/-! ## Keypad (KEY); the snapshot is given to the meaning, which takes any -/

/-- KEY-1, KEY-2 and KEY-5 -/
theorem test_skp : (pollKey 0xE09E true 0x0020 0 (regs [(0, 0x05)] start)).pc = 0x204 ∧
    (pollKey 0xE09E true 0xFFDF 0 (regs [(0, 0x05)] start)).pc = 0x202 := by decide
/-- KEY-3 and KEY-4 -/
theorem test_sknp : (pollKey 0xE0A1 false 0x0000 0 (regs [(0, 0x05)] start)).pc = 0x204 ∧
    (pollKey 0xE0A1 false 0x0020 0 (regs [(0, 0x05)] start)).pc = 0x202 := by decide
/-- KEY-6, the default mode -/
theorem test_skp_range : runFault 0xE09E (regs [(0, 0x10)] start) =
    some (.halted, 0x200, some ⟨.keyRange, 0x200, 0xE09E, some 0x10⟩) := by decide
/-- KEY-6, the other modes -/
theorem test_sknp_modes :
    (pollKey 0xE0A1 false 0x0001 0 (regs [(0, 0x10)] (startWith { defaultConfig with keyRangeMode := .lowNibble }))).pc =
      0x202 ∧
    (pollKey 0xE0A1 false 0xFFFF 0 (regs [(0, 0x10)] (startWith { defaultConfig with keyRangeMode := .notDown }))).pc =
      0x204 := by decide
/-- KEY-7 -/
theorem test_ld_k : (run 0xF30A { start with dt := 3 }).map (fun t => (t.phase, t.pc, t.dt)) =
    some (.waitKey 3, 0x202, 3) := by decide
/-- KEY-9, and KEY-8: with no event nothing happens -/
theorem test_ld_k_event : (run 0xF30A { start with dt := 3 }).map (fun t =>
    ((keyEvent 0x7 t).readV 3, (keyEvent 0x7 t).dt, (keyEvent 0x7 t).phase, (waitForKey 3 none t).phase,
      (waitForKey 3 none t).dt)) = some (0x07, 2, .running, .waitKey 3, 3) := by decide

/-! ## Timers (TIM) -/

/-- TIM-1, TIM-2 -/
theorem test_ld_dt : (run 0xF015 (regs [(0, 5)] start)).map (·.dt) = some 4 ∧
    (run 0xF015 (regs [(0, 0)] start)).map (·.dt) = some 0 := by decide
/-- TIM-3 -/
theorem test_ld_vx_dt : (run 0xF007 { start with dt := 10 }).map (fun t => (t.readV 0, t.dt)) = some (10, 9) := by decide
/-- TIM-5, TIM-6 -/
theorem test_ld_st : (run 0xF018 (regs [(0, 2)] start)).map (fun t => (t.st, t.outputs.soundActive)) = some (1, true) ∧
    (run 0xF018 (regs [(0, 1)] start)).map (fun t => (t.st, t.outputs.soundActive)) = some (0, false) := by decide

/-! ## Witnesses: for each statement of Certificates/Slice0/Obligations.lean with hypotheses, states and operands
that meet them, clause by clause and at the boundaries where clauses meet -/

/-- The start state in phase Running, Halted (by a DecodeError at 0x200) and WaitKey(3). -/
def running : State := { start with phase := .running }
def halted : State := { start with phase := .halted, faultRecord := some ⟨.decodeError, 0x200, 0x0000, none⟩ }
def waiting : State := { start with phase := .waitKey 3, pc := 0x202, dt := 3 }

/-- The smallest framebuffer on which a sprite never meets itself. -/
def smallest : State := startWith { defaultConfig with fbW := 8, fbH := 15 }

theorem test_witness_EncodeInvertsDecode : decodeWord 0x8126 = .ok (.shr 1 2) ∧ encode (.shr 1 2) = 0x8126 := by decide
theorem test_witness_DecoderAcceptsExactlyTheTable : decodeWord 0xF30A = .ok (.ldVxK 3) ∧ legalWord 0xF30A = true ∧
    legalWord 0xF30B = false ∧ (⟨"LD_Vx_K", 0xF00A, 0xF0FF⟩ : OpcodeRow) ∈ opcodeTable := by decide
theorem test_witness_OpcodeRowsNeverOverlap : (⟨"SHR", 0x8006, 0xF00F⟩ : OpcodeRow) ∈ opcodeTable ∧
    (⟨"SHR", 0x8006, 0xF00F⟩ : OpcodeRow).matchesWord 0x8126 = true := by decide
theorem test_witness_ResetCommandIsIdempotent : (∀ x, halted.phase ≠ .waitKey x) ∧ (∀ x, State.reset.phase ≠ .waitKey x) ∧
    waiting.phase = .waitKey 3 := by decide
theorem test_witness_LoadPlacesTheImage : State.reset.phase = .idle ∧ State.reset.loaded = false ∧
    ([0xAB] : List Byte).length ≤ 3584 ∧ (List.replicate 3584 (0 : Byte)).length ≤ 3584 := by
  refine ⟨by decide, by decide, by decide, ?_⟩
  rw [List.length_replicate]
theorem test_witness_LoadOfTooLongAnImageHalts : State.reset.phase = .idle ∧ State.reset.loaded = false ∧
    3584 < (List.replicate 3585 (0 : Byte)).length := by
  refine ⟨by decide, by decide, ?_⟩
  rw [List.length_replicate]
  decide
theorem test_witness_CommandsOutOfOrderAreRefused : (running.phase ≠ .idle ∧ running.loaded = true) ∧
    (start.phase = .idle ∧ start.loaded = true) ∧ (State.reset.phase = .idle ∧ State.reset.loaded = false) ∧
    halted.phase = .halted := by decide
theorem test_witness_RefusalMarksTheRunForGood : refusalOf (hostAction .executeCycle Run.start.machine) =
      some .cycleBeforeLoad ∧
    (nextOf (hostAction (.loadProgram [0x12, 0x00]) Run.start.machine)).isSome = true ∧
    (Run.start.act .executeCycle).mark ≠ none := by decide
theorem test_witness_OnlyResetLeavesHalted : halted.phase = .halted ∧ HostAction.keyEvent 4 ≠ .reset ∧
    nextOf (hostAction (.keyEvent 4) halted) = some halted := by decide
/-- From Running and from Idle with an image; an instruction that completes and one that suspends. -/
theorem test_witness_StepRunsTheDecodedInstruction : running.Ready ∧ start.Ready ∧
    decodeWord ((running.withFetchWord 16 0x6005).memRead 0x200 ++ (running.withFetchWord 16 0x6005).memRead 0x201) =
      .ok (.ldImm 0 5) ∧
    (nextOf (exec (.ldImm 0 5) running)).map (·.phase) = some .running ∧
    (nextOf (exec (.ldVxK 0) running)).map (·.phase) = some (.waitKey 0) := by decide
theorem test_witness_PlacedWordIsFetchedAndRun : State.reset.phase = .idle ∧ running.phase = .running ∧
    halted.phase = .halted ∧ fetchWord (State.reset.withFetchWord 16 (encode (.drw 1 2 5)).toNat) = 0xD125 := by decide
theorem test_witness_UndecodableWordHalts : start.Ready ∧
    decodeWord (start.memRead 0x200 ++ start.memRead 0x201) = .error (.family0 0x0000) := by decide
theorem test_witness_FaultingCycleIsUndone : (run 0x00EE start).map (·.phase) = some .halted ∧
    (run 0x0123 running).map (·.phase) = some .halted := by decide
/-- Each of the five instructions on both sides of its condition. -/
theorem test_witness_OnlyFiveInstructionsFault : running.phase = .running ∧
    (nextOf (exec (.call 0) { running with sp := 16 })).map (·.phase) = some .halted ∧
    (nextOf (exec (.call 0) { running with sp := 15 })).map (·.phase) = some .running ∧
    (nextOf (exec .ret { running with sp := 0 })).map (·.phase) = some .halted ∧
    (nextOf (exec .ret { running with sp := 1 })).map (·.phase) = some .running ∧
    (nextOf (exec (.skp 0) (regs [(0, 0x10)] running))).map (·.phase) = some .halted ∧
    (nextOf (exec (.sknp 0) (regs [(0, 0x10)] running))).map (·.phase) = some .halted ∧
    (nextOf (exec (.ldFVx 0) (regs [(0, 0x10)] running))).map (·.phase) = some .running := by decide
theorem test_witness_TimersStepOncePerCompletedCycle : start.Ready ∧
    decodeWord (wordOfBytes 0xF0 0x15) = .ok (.ldDtVx 0) ∧ decodeWord (wordOfBytes 0xF0 0x18) = .ok (.ldStVx 0) ∧
    (run 0xF015 start).map (·.phase) = some .running ∧ (run 0xF018 start).map (·.phase) = some .running ∧
    (run 0x00E0 start).map (·.phase) = some .running ∧ waiting.phase = .waitKey 3 := by decide
theorem test_witness_TimersStepOnlyWithCompletedCycles : (run 0xF30A { start with dt := 3 }).map (·.phase) =
      some (.waitKey 3) ∧
    (run 0x0000 { start with dt := 3 }).map (·.phase) = some .halted ∧ HostAction.keyEvent 4 ≠ .reset ∧
    (nextOf (hostAction (.keyEvent 4) halted)).map (·.phase) = some .halted ∧
    (nextOf (hostAction (.keyEvent 4) running)).map (·.phase) = some .running ∧
    (∀ x, running.phase ≠ .waitKey x) := by decide
theorem test_witness_KeyEventCompletesTheWait : waiting.phase = .waitKey 3 ∧ (∀ x, running.phase ≠ .waitKey x) := by decide
theorem test_witness_WaitChangesNothingUntilAKeyEvent : waiting.phase = .waitKey 3 := by decide
/-- Legal states in each phase, with a step or an action that answers next. -/
theorem test_witness_StepKeepsLegal : start.Inv ∧ (nextOf (step start)).isSome = true ∧ running.Inv ∧
    (nextOf (step running)).isSome = true ∧ waiting.Inv ∧ halted.Inv := by decide
theorem test_witness_HostActionsKeepLegal : State.reset.Inv ∧
    (nextOf (hostAction (.loadProgram [0x12, 0x00]) State.reset)).isSome = true ∧
    (nextOf (hostAction .reset halted)).isSome = true ∧ (nextOf (hostAction (.keyEvent 4) waiting)).isSome = true ∧
    (nextOf (hostAction .executeCycle start)).isSome = true := by decide
theorem test_witness_StepKeepsLoadMarkAndParameters : (nextOf (step start)).isSome = true := by decide
/-- A step that changes the framebuffer and one that does not. -/
theorem test_witness_OnlyClsAndDrwChangeTheFramebuffer :
    (run 0xD015 start).map (fun t => t.fb.length) = some 14 ∧ (run 0x6005 start).map (·.fb) = some start.fb := by decide
/-- Instructions that answer next, and registers they may and may not write. -/
theorem test_witness_InstructionsWriteOnlyTheirRegisters : (nextOf (exec (.ldImm 0 5) running)).isSome = true ∧
    ¬ mayWriteV running.config (.ldImm 0 5) 1 ∧ mayWriteV running.config (.ldImm 0 5) 0 ∧
    (nextOf (exec (.ldVxIMem 3) running)).isSome = true ∧ ¬ mayWriteV running.config (.ldVxIMem 3) 4 ∧
    mayWriteV running.config (.ldVxIMem 3) 3 := by
  refine ⟨by decide, ?_, ?_, by decide, ?_, ?_⟩ <;> unfold mayWriteV <;> decide
/-- An instruction that none of the lists names, and one end of an execution for each clause about the phase. -/
theorem test_witness_InstructionsWriteOnlyTheirSpecialRegisters :
    (nextOf (exec (.addReg 0 1) running)).map (·.phase) = some running.phase ∧
    (nextOf (exec (.ldVxK 3) running)).map (·.phase) = some (.waitKey 3) ∧
    (nextOf (exec .ret running)).map (·.phase) = some .halted ∧
    ∀ a x, Instr.addReg 0 1 ≠ .ldI a ∧ Instr.addReg 0 1 ≠ .addIVx x ∧ Instr.addReg 0 1 ≠ .ldFVx x ∧
      Instr.addReg 0 1 ≠ .ldIMemVx x ∧ Instr.addReg 0 1 ≠ .ldVxIMem x ∧ Instr.addReg 0 1 ≠ .call a ∧
      Instr.addReg 0 1 ≠ .ret ∧ Instr.addReg 0 1 ≠ .ldDtVx x ∧ Instr.addReg 0 1 ≠ .ldStVx x := by
  refine ⟨by decide, by decide, by decide, fun a x => ?_⟩
  simp
/-- FX33 and FX55 with the store wrapping at the top of memory, and an instruction that stores nothing. -/
theorem test_witness_InstructionsStoreOnlyTheirBytes :
    (nextOf (exec (.ldBVx 0) { running with i := 0xFFE })).isSome = true ∧
    (nextOf (exec (.ldIMemVx 0xF) { running with i := 0xFFF })).isSome = true ∧
    (nextOf (exec .cls running)).isSome = true ∧ ∀ x, Instr.cls ≠ .ldBVx x ∧ Instr.cls ≠ .ldIMemVx x := by decide
theorem test_witness_OtherInstructionsAdvanceByTwo : running.phase = .running ∧
    (nextOf (exec .cls running)).map (·.phase) = some .running ∧
    (nextOf (exec .ret running)).map (·.phase) = some .halted ∧
    ∀ a x y n, Instr.cls ≠ .jp a ∧ Instr.cls ≠ .call a ∧ Instr.cls ≠ .seImm x n ∧ Instr.cls ≠ .seReg x y := by
  refine ⟨by decide, by decide, by decide, fun a x y n => ?_⟩
  simp
theorem test_witness_JumpToItselfIsSafe : start.Ready ∧ start.pc.toNat = (0x200 : Addr).toNat ∧
    (let s := start.withFetchWord 16 0x1200
     s.Ready ∧ s.pc.toNat = (0x200 : Addr).toNat ∧
      decodeWord (s.memRead s.pc.toNat ++ s.memRead (s.pc.toNat + 1)) = .ok (.jp 0x200)) := by decide
/-- Depth 15, the deepest that still pushes, and depth 16. -/
theorem test_witness_CallPushesAndJumps : ({ running with sp := 15 } : State).sp.val < 16 ∧
    ({ running with sp := 16 } : State).sp.val = 16 := by decide
/-- Depth 16 with the highest legal entry, depth 1 and depth 0. -/
theorem test_witness_ReturnPopsTheNewestEntry :
    ({ running with sp := 16, stack := Vector.replicate 16 0xFFF } : State).sp.val ≠ 0 ∧
    ({ running with sp := 16, stack := Vector.replicate 16 0xFFF } : State).stack[15].toNat < 0x1000 ∧
    ({ running with sp := 1 } : State).sp.val ≠ 0 ∧ running.sp.val = 0 := by decide
theorem test_witness_AddRegistersWithCarry : (0 : RegIdx) ≠ vf ∧ (0xE : RegIdx) ≠ vf := by decide
theorem test_witness_SubtractWithNotBorrow : (0 : RegIdx) ≠ vf ∧ (0xE : RegIdx) ≠ vf := by decide
theorem test_witness_LogicIsBitwise : ¬ running.config.logicClearsVf = true ∧ (0 : RegIdx) ≠ vf ∧
    (startWith { defaultConfig with logicClearsVf := true }).config.logicClearsVf = true := by decide
theorem test_witness_ShiftsByOne : (0 : RegIdx) ≠ vf ∧ running.config.shiftUsesVy = false ∧
    (startWith { defaultConfig with shiftUsesVy := true }).config.shiftUsesVy = true := by decide
/-- The register at 0xF and at 0x10, in mode `fault` and in another. -/
theorem test_witness_IndexOfAGlyph :
    (let s := regs [(0, 0x10), (1, 0x0F)] (startWith { defaultConfig with fontIndexMode := .fault })
     s.config.fontIndexMode = .fault ∧ (s.readV 0).toNat > 0xF ∧ (s.readV 1).toNat ≤ 0xF) ∧
    running.config.fontIndexMode ≠ .fault := by decide
/-- The register at 0xF and at 0x10, in mode `fault` and in another. -/
theorem test_witness_KeyPollsSkip :
    (let s := regs [(0, 0x10), (1, 0x0F)] running
     s.config.keyRangeMode = .fault ∧ (s.readV 0).toNat > 0xF ∧ ¬ (s.readV 1).toNat > 0xF) ∧
    (startWith { defaultConfig with keyRangeMode := .notDown }).config.keyRangeMode ≠ .fault := by decide
/-- The first and the last register, at the block's ends. -/
theorem test_witness_RegistersAreStored : (0x0 : RegIdx).toNat ≤ (0x0 : RegIdx).toNat ∧
    (0xF : RegIdx).toNat ≤ (0xF : RegIdx).toNat ∧ running.config.loadStoreIncrementsI = false := by decide
/-- A framebuffer of one cell, on which the sprite's bits meet: the first two rows of glyph 0 have 6 set bits, so the
cell is inverted 6 times and VF is 1; and the default one. -/
theorem test_witness_DrawXorsBitAfterBit :
    (let s := startWith { defaultConfig with fbW := 1, fbH := 1 }
     s.config.Wf ∧ runFb 0xD012 s = some ([], 1)) ∧ running.config.Wf := by decide
/-- The smallest and the default framebuffer; on the smallest, a draw that collides and one that does not. -/
theorem test_witness_DrawInvertsExactlyTheSprite : (8 ≤ smallest.config.fbW ∧ 15 ≤ smallest.config.fbH) ∧
    (8 ≤ running.config.fbW ∧ 15 ≤ running.config.fbH) ∧
    (runFb 0xD01F { smallest with fb := [(0, 0)] }).map (·.2) = some 1 ∧ (runFb 0xD01F smallest).map (·.2) = some 0 := by
  decide
theorem test_witness_DrawingTwiceRestores : (1 : RegIdx) ≠ vf ∧ (2 : RegIdx) ≠ vf ∧
    (8 ≤ smallest.config.fbW ∧ 15 ≤ smallest.config.fbH) := by decide
theorem test_witness_TimerInstructions : (nextOf (exec (.ldDtVx 0) running)).map (·.phase) = some .running ∧
    (nextOf (exec (.ldStVx 0) running)).map (·.phase) = some .running ∧
    (nextOf (exec (.ldVxDt 0) running)).map (·.phase) = some .running := by decide

end Sys2Proof.Tests
end

/-! ## Control transfer (41_control_transfer.md) -/

namespace Sys2Proof

/-- Layout NNN with opcode nibble 1 decodes to `JP` of its address field (R141). -/
theorem decodeWord_layoutNNN_jp (nnn : Addr) : decodeWord (layoutNNN 0x1 nnn) = .ok (.jp nnn) := by
  simp [decodeWord]

namespace Machine

/-- The number a write to pc stores (R24): 0x1000 is far below the 16 bits of pc, so only the one wrap happens. -/
theorem State.setPc_pc_toNat (s : State) (target : Nat) : (s.setPc target).pc.toNat = target % 0x1000 := by
  have hmod : target % 0x1000 < 0x1000 := Nat.mod_lt _ (by decide)
  rw [State.setPc_pc, BitVec.toNat_ofNat, Nat.mod_eq_of_lt (by omega)]

/-- A 12-bit address is written to pc without a wrap (R24). -/
theorem State.setPc_addr_pc_toNat (s : State) (nnn : Addr) : (s.setPc nnn.toNat).pc.toNat = nnn.toNat := by
  rw [State.setPc_pc_toNat, Nat.mod_eq_of_lt nnn.isLt]

/-- The frame of a write to pc (R24). -/
theorem State.setPc_frame (s : State) (target : Nat) :
    SameRegistersBut [] s (s.setPc target) ∧ SameBesidesV s (s.setPc target) := by
  simp [SameRegistersBut, SameBesidesV, SameStack, SameTimers, SameMemory, SameControl]

/-- `JP` is one write to pc: the advance of the cycle (R122) is overwritten by it (R141). -/
theorem exec_jp (nnn : Addr) (s : State) : exec (.jp nnn) s = .next (s.setPc nnn.toNat) := rfl

/-- Settles O31: 1NNN is the layout of `JP`, and its one write to pc stores NNN unwrapped and touches nothing else. -/
theorem jumpGoesToItsAddress : Obligations.JumpGoesToItsAddress := by
  unfold Obligations.JumpGoesToItsAddress
  intro nnn
  refine ⟨decodeWord_layoutNNN_jp nnn, fun s => ?_⟩
  exact ⟨s.setPc nnn.toNat, exec_jp nnn s, s.setPc_addr_pc_toNat nnn, s.setPc_frame nnn.toNat⟩

end Machine

end Sys2Proof

/-! ## Display (44_display.md) -/

namespace Sys2Proof.Machine

/-! ### CLS (R211) -/

/-- `CLS` is the advance of the cycle (R122) and an empty framebuffer, the canonical form of the all-zero one. -/
theorem exec_cls (s : State) : exec .cls s = .next (s.advance.setFb []) := rfl

/-- Every cell of the empty framebuffer is 0. -/
@[simp] theorem Framebuffer.cell_nil (p : Pixel) : Framebuffer.cell [] p = false := rfl

/-- The frame of a framebuffer update after the advance of the cycle. -/
theorem State.advance_setFb_frame (s : State) (fb : Framebuffer) :
    SameRegistersBut [] s (s.advance.setFb fb) ∧ (s.advance.setFb fb).i = s.i ∧
      SameStack s (s.advance.setFb fb) ∧ SameTimers s (s.advance.setFb fb) ∧
      SameMemory s (s.advance.setFb fb) ∧ SameControl s (s.advance.setFb fb) := by
  simp [SameRegistersBut, SameStack, SameTimers, SameMemory, SameControl]

/-- Settles O51: CLS leaves the empty framebuffer, whose cells are all 0, and its update touches nothing else. -/
theorem clearScreenClearsEveryCell : Obligations.ClearScreenClearsEveryCell := by
  unfold Obligations.ClearScreenClearsEveryCell
  refine ⟨by decide, fun s => ?_⟩
  exact ⟨s.advance.setFb [], exec_cls s, Framebuffer.cell_nil, s.advance_setFb_frame []⟩

/-! ### Who changes the framebuffer (R219) -/

/-- An instruction that changes the framebuffer is CLS or DRW. -/
theorem exec_fb (i : Instr) (s t : State) (h : exec i s = .next t) :
    t.fb = s.fb ∨ i = .cls ∨ ∃ x y n, i = .drw x y n := by
  cases i
  case cls => exact .inr (.inl rfl)
  case drw x y n => exact .inr (.inr ⟨x, y, n, rfl⟩)
  all_goals left
  case ret => rw [exec_ret] at h; cases h; split <;> rfl
  case call => rw [exec_call] at h; cases h; split <;> rfl
  case skp => rw [exec_skp] at h; cases h; split <;> simp
  case sknp => rw [exec_sknp] at h; cases h; split <;> simp
  case ldFVx => rw [exec_ldFVx] at h; cases h; split <;> rfl
  case ldIMemVx x => obtain ⟨m, he, -⟩ := exec_ldIMemVx x s; rw [he] at h; cases h; rfl
  case ldVxIMem x => obtain ⟨v, he, -⟩ := exec_ldVxIMem x s; rw [he] at h; cases h; rfl
  case rnd => cases h; rfl
  -- Every other meaning is one chain of updates, none of them of the framebuffer.
  all_goals
    obtain rfl := Host.Outcome.next.inj h
    simp

/-- The end of a cycle leaves the framebuffer alone (R250 writes timers only). -/
@[simp] theorem finishCycle_fb (t : State) : (finishCycle t).fb = t.fb := by rw [finishCycle_eq]

/-- A cycle that changes the framebuffer runs CLS or DRW. -/
theorem runCycle_fb (s t : State) (h : runCycle s = .next t) : t.fb = s.fb ∨
    decodeWord (fetchWord s) = .ok .cls ∨ ∃ x y n, decodeWord (fetchWord s) = .ok (.drw x y n) := by
  rcases runCycle_cases s with ⟨e, -, hr⟩ | ⟨i, u, hd, hu, hr⟩
  · rw [hr] at h; cases h
    exact .inl rfl
  · rw [hr] at h; cases h
    rw [finishCycle_fb, hd]
    rcases exec_fb i s u hu with hfb | rfl | ⟨x, y, n, rfl⟩
    · exact .inl hfb
    · exact .inr (.inl rfl)
    · exact .inr (.inr ⟨x, y, n, rfl⟩)

/-- An observation of `key_event` in the wait leaves the framebuffer alone, a wake-up too (R236, R237). -/
@[simp] theorem waitForKey_fb (x : RegIdx) (event : Option Nibble) (s : State) :
    (waitForKey x event s).fb = s.fb := by cases event <;> rfl

/-- Settles O26: the output is the framebuffer by definition, and of a step's outcomes only a cycle can change it;
a cycle from Idle fetches the same word after the phase is set to Running. -/
theorem onlyClsAndDrwChangeTheFramebuffer : Obligations.OnlyClsAndDrwChangeTheFramebuffer := by
  unfold Obligations.OnlyClsAndDrwChangeTheFramebuffer
  intro s t h
  refine ⟨rfl, ?_⟩
  rcases step_cases s t h with ⟨hp, hr⟩ | ⟨hp, hl, hr⟩ | ⟨x, -, rfl⟩
  · exact (runCycle_fb s t hr).imp_right fun hd => ⟨.inl hp, hd⟩
  · exact (runCycle_fb (s.setPhase .running) t hr).imp_right fun hd => ⟨.inr ⟨hp, hl⟩, hd⟩
  · exact .inl (waitForKey_fb x _ s)

end Sys2Proof.Machine

/-! ## The timers (46_timers.md) -/

namespace Sys2Proof.Machine

/-! ### What an execution does to the timers (R252 to R254) -/

/-- `LD DT, Vx` is the advance of the cycle (R122) and the write of V[X] to DT. -/
theorem exec_ldDtVx (x : RegIdx) (s : State) :
    exec (.ldDtVx x) s = .next (s.advance.setDt (s.readV x)) := rfl

/-- `LD ST, Vx` is the advance of the cycle (R122) and the write of V[X] to ST. -/
theorem exec_ldStVx (x : RegIdx) (s : State) :
    exec (.ldStVx x) s = .next (s.advance.setSt (s.readV x)) := rfl

/-- Only FX15 and FX18 write a timer. -/
theorem exec_sameTimers (i : Instr) (s t : State) (hi : ∀ x, i ≠ .ldDtVx x ∧ i ≠ .ldStVx x)
    (h : exec i s = .next t) : SameTimers s t := by
  cases i
  case ldDtVx x => exact absurd rfl (hi x).1
  case ldStVx x => exact absurd rfl (hi x).2
  -- The meanings that branch: on each branch the update leaves the timers alone.
  case ret => rw [exec_ret] at h; cases h; split <;> exact ⟨rfl, rfl⟩
  case call => rw [exec_call] at h; cases h; split <;> exact ⟨rfl, rfl⟩
  case skp => rw [exec_skp] at h; cases h; split <;> simp [SameTimers]
  case sknp => rw [exec_sknp] at h; cases h; split <;> simp [SameTimers]
  case ldFVx => rw [exec_ldFVx] at h; cases h; split <;> exact ⟨rfl, rfl⟩
  case ldIMemVx x => obtain ⟨m, he, -⟩ := exec_ldIMemVx x s; rw [he] at h; cases h; exact ⟨rfl, rfl⟩
  case ldVxIMem x => obtain ⟨v, he, -⟩ := exec_ldVxIMem x s; rw [he] at h; cases h; exact ⟨rfl, rfl⟩
  case rnd => cases h; exact ⟨rfl, rfl⟩
  -- Every other meaning is one chain of updates, none of them of a timer.
  all_goals
    obtain rfl := Host.Outcome.next.inj h
    simp [SameTimers]

/-- An execution that does not stay in Running leaves the timers alone: FX15 and FX18 neither fault nor suspend. -/
theorem exec_sameTimers_of_not_running (i : Instr) (s t : State) (hs : s.phase = .running)
    (h : exec i s = .next t) (ht : t.phase ≠ .running) : SameTimers s t := by
  refine exec_sameTimers i s t (fun x => ⟨?_, ?_⟩) h
  · rintro rfl
    rw [exec_ldDtVx] at h; cases h
    exact ht hs
  · rintro rfl
    rw [exec_ldStVx] at h; cases h
    exact ht hs

/-! ### The end of a cycle (R250, R126) -/

@[simp] theorem finishCycle_phase (t : State) : (finishCycle t).phase = t.phase := by rw [finishCycle_eq]

/-- A completed cycle ends with the timer step. -/
theorem finishCycle_of_running (t : State) (h : t.phase = .running) : finishCycle t = t.timerStep := by
  simp only [finishCycle, h]

/-- A cycle that faulted or was suspended ends without the timer step. -/
theorem finishCycle_of_not_running (t : State) (h : t.phase ≠ .running) : finishCycle t = t := by
  rw [finishCycle_eq, if_neg h, if_neg h]

/-- A cycle that finds an instruction executes it and finishes. -/
theorem runCycle_of_decode (s : State) (i : Instr) (hd : decodeWord (fetchWord s) = .ok i) :
    ∃ u, exec i s = .next u ∧ runCycle s = .next (finishCycle u) := by
  rcases runCycle_cases s with ⟨e, he, -⟩ | ⟨j, u, hj, hu, hr⟩
  · rw [hd] at he; cases he
  · rw [hd] at hj; cases hj
    exact ⟨u, hu, hr⟩

/-- A step that completes the cycle of `i` is the execution of `i` and then the timer step. -/
theorem step_completed (s t : State) (i : Instr) (hs : s.Ready) (hd : decodeWord (fetchWord s) = .ok i)
    (h : step s = .next t) (ht : t.phase = .running) :
    ∃ u, exec i (s.setPhase .running) = .next u ∧ t = u.timerStep := by
  obtain ⟨u, hu, hr⟩ := runCycle_of_decode (s.setPhase .running) i hd
  rw [step_of_ready s hs, hr] at h; cases h
  exact ⟨u, hu, finishCycle_of_running u (by rwa [finishCycle_phase] at ht)⟩

/-- A cycle that does not complete leaves the timers alone. -/
theorem runCycle_sameTimers (s t : State) (hs : s.phase = .running) (h : runCycle s = .next t)
    (ht : t.phase ≠ .running) : SameTimers s t := by
  rcases runCycle_cases s with ⟨e, -, hr⟩ | ⟨i, u, -, hu, hr⟩
  · rw [hr] at h; cases h
    exact ⟨rfl, rfl⟩
  · rw [hr] at h; cases h
    rw [finishCycle_phase] at ht
    rw [finishCycle_of_not_running u ht]
    exact exec_sameTimers_of_not_running i s u hs hu ht

/-! ### The wait and the host (R237, R238, R302, R303) -/

/-- A key event in WaitKey(x) is the wake-up (R237). -/
theorem keyEvent_of_waitKey (s : State) (x : RegIdx) (k : Nibble) (h : s.phase = .waitKey x) :
    keyEvent k s = keyArrives x k s := by simp only [keyEvent, h]

/-- A key event outside WaitKey is ignored (R238). -/
theorem keyEvent_of_not_waitKey (s : State) (k : Nibble) (h : ∀ x, s.phase ≠ .waitKey x) :
    keyEvent k s = s := by
  cases hp : s.phase with
  | waitKey x => exact absurd hp (h x)
  | idle => simp only [keyEvent, hp]
  | running => simp only [keyEvent, hp]
  | halted => simp only [keyEvent, hp]

/-- The wake-up ends in Running (R237). -/
@[simp] theorem keyArrives_phase (x : RegIdx) (k : Nibble) (s : State) :
    (keyArrives x k s).phase = .running := rfl

/-- `load_program` touches no timer, whether it loads or halts. -/
theorem loadProgram_sameTimers (bytes : List Byte) (s t : State) (h : loadProgram bytes s = .next t) :
    SameTimers s t := by
  unfold loadProgram at h
  split at h
  · split at h
    · cases h; exact ⟨rfl, rfl⟩
    · obtain ⟨m, hm, -⟩ := copyBytes_eq bytes 0x200 s
      rw [hm] at h; cases h
      exact ⟨rfl, rfl⟩
  · cases h

/-- An accepted `execute_cycle()` is a step; in WaitKey, where a step observes the input, it is not accepted. -/
theorem step_of_executeCycle (s t : State) (h : executeCycle s = .next t) : step s = .next t := by
  cases hp : s.phase with
  | waitKey x => simp [executeCycle, hp] at h
  | idle => simpa only [step, hp] using h
  | running => simpa only [step, hp] using h
  | halted => simpa only [step, hp] using h

/-- A step that does not end in Running leaves the timers alone. -/
theorem step_sameTimers (s t : State) (h : step s = .next t) (ht : t.phase ≠ .running) : SameTimers s t := by
  rcases step_cases s t h with ⟨hp, hr⟩ | ⟨-, -, hr⟩ | ⟨x, -, rfl⟩
  · exact runCycle_sameTimers s t hp hr ht
  · exact runCycle_sameTimers (s.setPhase .running) t rfl hr ht
  · cases he : Config.keyEventSample s.samples with
    | none => exact ⟨rfl, rfl⟩
    | some k => rw [he] at ht; exact absurd rfl ht

/-- Settles O18: a completed cycle is the execution and then one countdown of each timer, and an execution writes
a timer only in FX15 and FX18. -/
theorem timersStepOncePerCompletedCycle : Obligations.TimersStepOncePerCompletedCycle := by
  unfold Obligations.TimersStepOncePerCompletedCycle
  refine ⟨fun s t i hs hd h ht => ?_, fun s x k hp => ?_⟩
  · obtain ⟨u, hu, rfl⟩ := step_completed s t i hs hd h ht
    rw [State.timerStep_dt, State.timerStep_st, countDown_toNat, countDown_toNat]
    refine ⟨?_, ?_, fun hi => ?_⟩
    · rintro x rfl
      rw [exec_ldDtVx] at hu; cases hu
      exact ⟨rfl, rfl⟩
    · rintro x rfl
      rw [exec_ldStVx] at hu; cases hu
      exact ⟨rfl, rfl⟩
    · obtain ⟨hdt, hst⟩ := exec_sameTimers i _ u hi hu
      rw [hdt, hst]
      exact ⟨rfl, rfl⟩
  · rw [keyEvent_of_waitKey s x k hp]
    exact ⟨countDown_toNat s.dt, countDown_toNat s.st⟩

/-- Settles O19: of what a step or the host can do, only a completed cycle and the wake-up of a wait step the timers,
and both end in Running. -/
theorem timersStepOnlyWithCompletedCycles : Obligations.TimersStepOnlyWithCompletedCycles := by
  unfold Obligations.TimersStepOnlyWithCompletedCycles
  refine ⟨step_sameTimers, fun s t a ha h hor => ?_⟩
  cases a with
  | reset => exact absurd rfl ha
  | loadProgram bytes => exact loadProgram_sameTimers bytes s t h
  | executeCycle =>
    rcases hor with ht | ⟨⟨k, hk⟩, -⟩
    · exact step_sameTimers s t (step_of_executeCycle s t h) ht
    · cases hk
  | keyEvent k =>
    obtain rfl := Host.Outcome.next.inj h
    have hw : ∀ x, s.phase ≠ .waitKey x := by
      rcases hor with ht | ⟨-, hw⟩
      · intro x hx
        rw [keyEvent_of_waitKey s x k hx] at ht
        exact ht (keyArrives_phase x k s)
      · exact hw
    rw [keyEvent_of_not_waitKey s k hw]
    exact ⟨rfl, rfl⟩

end Sys2Proof.Machine

/-! ## Encoding (30_encoding.md): the round trips -/

namespace Sys2Proof

/-- The decoder reads back the instruction of an encoded word: its opcode nibble and sub-opcode choose the arm, and the
fields of the layout are the operands (R94 to R96). -/
@[simp] theorem decodeWord_encode (i : Instr) : decodeWord (encode i) = .ok i := by
  cases i
  case cls => decide
  case ret => decide
  all_goals simp [encode, decodeWord, decode8, decodeE, decodeF]

/-- Settles O2: the two bytes of a word make up the word again, and the word decodes to its instruction. -/
theorem decodeInvertsEncode : Obligations.DecodeInvertsEncode := by
  unfold Obligations.DecodeInvertsEncode
  intro i rest
  rw [bytesOfWord, List.cons_append, List.cons_append, List.nil_append, decode_two, wordOfBytes_bytesOfWord,
    decodeWord_encode]

/-! ### A decoded word is the encoding of its instruction (R98) -/

section Recover

variable {w : Word} {op n : Nibble} {nn : Byte}

theorem layoutNNN_of_fields (hop : opField w = op) : layoutNNN op (nnnField w) = w := by
  rw [← hop]; exact layoutNNN_fields w

theorem layoutXNN_of_fields (hop : opField w = op) (hnn : nnField w = nn) : layoutXNN op (xField w) nn = w := by
  rw [← hop, ← hnn]; exact layoutXNN_fields w

theorem layoutXYN_of_fields (hop : opField w = op) (hn : nField w = n) :
    layoutXYN op (xField w) (yField w) n = w := by
  rw [← hop, ← hn]; exact layoutXYN_fields w

end Recover

theorem encode_of_decode0 (w : Word) (i : Instr) (h : decode0 w = .ok i) : encode i = w := by
  simp only [decode0] at h
  split_ifs at h with h0 h1
  · cases h; exact h0.symm
  · cases h; exact h1.symm

theorem encode_of_decode8 (w : Word) (i : Instr) (hop : opField w = 0x8#4) (h : decode8 w = .ok i) :
    encode i = w := by
  simp only [decode8] at h
  split_ifs at h with hn hn hn hn hn hn hn hn hn
  all_goals
    cases h
    exact layoutXYN_of_fields hop hn

theorem encode_of_decodeE (w : Word) (i : Instr) (hop : opField w = 0xE#4) (h : decodeE w = .ok i) :
    encode i = w := by
  simp only [decodeE] at h
  split_ifs at h with hnn hnn
  all_goals
    cases h
    exact layoutXNN_of_fields hop hnn

theorem encode_of_decodeF (w : Word) (i : Instr) (hop : opField w = 0xF#4) (h : decodeF w = .ok i) :
    encode i = w := by
  simp only [decodeF] at h
  split_ifs at h with hnn hnn hnn hnn hnn hnn hnn hnn hnn
  all_goals
    cases h
    exact layoutXNN_of_fields hop hnn

/-- The sixteen opcode nibbles, for the case split the decoder makes (R96). -/
theorem nibble_cases (op : Nibble) : op = 0x0#4 ∨ op = 0x1#4 ∨ op = 0x2#4 ∨ op = 0x3#4 ∨ op = 0x4#4 ∨ op = 0x5#4 ∨
    op = 0x6#4 ∨ op = 0x7#4 ∨ op = 0x8#4 ∨ op = 0x9#4 ∨ op = 0xA#4 ∨ op = 0xB#4 ∨ op = 0xC#4 ∨ op = 0xD#4 ∨
    op = 0xE#4 ∨ op = 0xF#4 := by
  revert op; decide

theorem encode_of_decodeWord (w : Word) (i : Instr) (h : decodeWord w = .ok i) : encode i = w := by
  rcases nibble_cases (opField w) with hop | hop | hop | hop | hop | hop | hop | hop | hop | hop | hop | hop | hop |
    hop | hop | hop
  all_goals simp only [decodeWord, hop, BitVec.reduceEq, reduceIte, Except.ok.injEq] at h
  · exact encode_of_decode0 w i h
  · subst h; exact layoutNNN_of_fields hop
  · subst h; exact layoutNNN_of_fields hop
  · subst h; exact layoutXNN_of_fields hop rfl
  · subst h; exact layoutXNN_of_fields hop rfl
  · split at h
    · cases h; exact layoutXYN_of_fields hop ‹_›
    · cases h
  · subst h; exact layoutXNN_of_fields hop rfl
  · subst h; exact layoutXNN_of_fields hop rfl
  · exact encode_of_decode8 w i hop h
  · split at h
    · cases h; exact layoutXYN_of_fields hop ‹_›
    · cases h
  · subst h; exact layoutNNN_of_fields hop
  · subst h; exact layoutNNN_of_fields hop
  · subst h; exact layoutXNN_of_fields hop rfl
  · subst h; exact layoutXYN_of_fields hop rfl
  · exact encode_of_decodeE w i hop h
  · exact encode_of_decodeF w i hop h

/-- Settles O3: every arm of the decoder keeps all the fields of the word, as operands or as the nibble it tested. -/
theorem encodeInvertsDecode : Obligations.EncodeInvertsDecode := by
  unfold Obligations.EncodeInvertsDecode
  exact encode_of_decodeWord

/-! ### The opcode table (R95, R97) -/

namespace Laws.EncodesInOwnRow

/-- The family of Laws/PerInstr.lean for every instruction. -/
theorem every_instr (i : Instr) : Statement i := by
  cases i
  exacts [cls, ret, jp _, call _, seImm _ _, sneImm _ _, seReg _ _, ldImm _ _, addImm _ _, ldReg _ _, orReg _ _,
    andReg _ _, xorReg _ _, addReg _ _, sub _ _, shr _ _, subn _ _, shl _ _, sneReg _ _, ldI _, jpV0 _, rnd _ _,
    drw _ _ _, skp _, sknp _, ldVxDt _, ldVxK _, ldDtVx _, ldStVx _, addIVx _, ldFVx _, ldBVx _, ldIMemVx _,
    ldVxIMem _]

end Laws.EncodesInOwnRow

theorem OpcodeRow.matchesWord_iff (r : OpcodeRow) (w : Word) : r.matchesWord w = true ↔ w &&& r.mask = r.mtch :=
  beq_iff_eq

/-- Two rows that agree on the bits both masks keep are the same row. -/
theorem opcodeRows_separated : ∀ r ∈ opcodeTable, ∀ r' ∈ opcodeTable,
    r.mtch &&& r'.mask = r'.mtch &&& r.mask → r = r' := by decide

/-- Settles O5: a word that matches two rows makes their match words agree under both masks, and no two rows do. -/
theorem opcodeRowsNeverOverlap : Obligations.OpcodeRowsNeverOverlap := by
  unfold Obligations.OpcodeRowsNeverOverlap
  intro w r r' hr hr' hw hw'
  rw [OpcodeRow.matchesWord_iff] at hw hw'
  refine opcodeRows_separated r hr r' hr' ?_
  rw [← hw, ← hw', BitVec.and_assoc, BitVec.and_assoc, BitVec.and_comm r.mask]

section Match

variable {w mask mtch : Word}

theorem opField_of_match (h : w &&& mask = mtch) (hm : opField mask = 0xF#4) : opField w = opField mtch := by
  have hand : opField (w &&& mask) = opField w &&& opField mask := BitVec.extractLsb'_and
  rw [← h, hand, hm]; exact (BitVec.and_allOnes).symm

theorem nField_of_match (h : w &&& mask = mtch) (hm : nField mask = 0xF#4) : nField w = nField mtch := by
  have hand : nField (w &&& mask) = nField w &&& nField mask := BitVec.extractLsb'_and
  rw [← h, hand, hm]; exact (BitVec.and_allOnes).symm

theorem nnField_of_match (h : w &&& mask = mtch) (hm : nnField mask = 0xFF#8) : nnField w = nnField mtch := by
  have hand : nnField (w &&& mask) = nnField w &&& nnField mask := BitVec.extractLsb'_and
  rw [← h, hand, hm]; exact (BitVec.and_allOnes).symm

end Match

/-- The ten families in which every word is an instruction (R96). -/
theorem decodes_of_wholeFamily (w : Word) (hop : opField w ∉ [0x0#4, 0x5#4, 0x8#4, 0x9#4, 0xE#4, 0xF#4]) :
    ∃ i, decodeWord w = .ok i := by
  rcases nibble_cases (opField w) with h | h | h | h | h | h | h | h | h | h | h | h | h | h | h | h
  all_goals simp [decodeWord, h] at hop ⊢

/-- The two families in which the word is an instruction when N is 0 (R96). -/
theorem decodes_of_compareFamily (w : Word) (hop : opField w = 0x5#4 ∨ opField w = 0x9#4) (hn : nField w = 0x0#4) :
    ∃ i, decodeWord w = .ok i := by
  rcases hop with h | h
  all_goals simp [decodeWord, h, hn]

section Decodes

variable (w : Word) (r : OpcodeRow) (h : w &&& r.mask = r.mtch)
include h

/-- A row of families 0 to 7, 9 and A to D: one whole word, a whole family, or a family with N = 0. -/
theorem decodes_of_plainRow (hr : r ∈ opcodeRowsPlain) : ∃ i, decodeWord w = .ok i := by
  have hword (hm : r.mask = BitVec.allOnes 16) : w = r.mtch := by rw [← h, hm, BitVec.and_allOnes]
  have hfamily (hm : opField r.mask = 0xF#4)
      (hop : opField r.mtch ∉ [0x0#4, 0x5#4, 0x8#4, 0x9#4, 0xE#4, 0xF#4]) : ∃ i, decodeWord w = .ok i :=
    decodes_of_wholeFamily w (by rwa [opField_of_match h hm])
  have hcompare (hm : opField r.mask = 0xF#4) (hm' : nField r.mask = 0xF#4)
      (hop : opField r.mtch = 0x5#4 ∨ opField r.mtch = 0x9#4) (hn : nField r.mtch = 0x0#4) :
      ∃ i, decodeWord w = .ok i :=
    decodes_of_compareFamily w (by rwa [opField_of_match h hm]) (by rwa [nField_of_match h hm'])
  simp only [opcodeRowsPlain, List.mem_cons, List.not_mem_nil, or_false] at hr
  rcases hr with rfl | rfl | rfl | rfl | rfl | rfl | rfl | rfl | rfl | rfl | rfl | rfl | rfl | rfl
  · exact ⟨.cls, by rw [hword rfl]; rfl⟩
  · exact ⟨.ret, by rw [hword rfl]; rfl⟩
  · exact hfamily rfl (by decide)
  · exact hfamily rfl (by decide)
  · exact hfamily rfl (by decide)
  · exact hfamily rfl (by decide)
  · exact hcompare rfl rfl (by decide) rfl
  · exact hfamily rfl (by decide)
  · exact hfamily rfl (by decide)
  · exact hcompare rfl rfl (by decide) rfl
  · exact hfamily rfl (by decide)
  · exact hfamily rfl (by decide)
  · exact hfamily rfl (by decide)
  · exact hfamily rfl (by decide)

/-- A row of the 8-family fixes the opcode nibble and the sub-opcode N. -/
theorem decodes_of_aluRow (hr : r ∈ opcodeRowsAlu) : ∃ i, decodeWord w = .ok i := by
  simp only [opcodeRowsAlu, List.mem_cons, List.not_mem_nil, or_false] at hr
  rcases hr with rfl | rfl | rfl | rfl | rfl | rfl | rfl | rfl | rfl
  all_goals
    have hop : opField w = 0x8#4 := opField_of_match h rfl
    have hn := nField_of_match h rfl
    simp only [nField, BitVec.reduceExtractLsb'] at hn
    simp [decodeWord, decode8, hop, nField, hn]

/-- A row of the E- and F-families fixes the opcode nibble and the sub-opcode byte NN. -/
theorem decodes_of_miscRow (hr : r ∈ opcodeRowsMisc) : ∃ i, decodeWord w = .ok i := by
  simp only [opcodeRowsMisc, List.mem_cons, List.not_mem_nil, or_false] at hr
  rcases hr with rfl | rfl | rfl | rfl | rfl | rfl | rfl | rfl | rfl | rfl | rfl
  all_goals
    have hop := opField_of_match h rfl
    have hnn := nnField_of_match h rfl
    simp only [opField, nnField, BitVec.reduceExtractLsb'] at hop hnn
    simp [decodeWord, decodeE, decodeF, opField, nnField, hop, hnn]

end Decodes

theorem legalWord_iff (w : Word) : legalWord w = true ↔ ∃ r ∈ opcodeTable, w &&& r.mask = r.mtch := by
  simp only [legalWord, List.any_eq_true, OpcodeRow.matchesWord_iff]

theorem decodes_of_legalWord (w : Word) (hw : legalWord w = true) : ∃ i, decodeWord w = .ok i := by
  obtain ⟨r, hr, h⟩ := (legalWord_iff w).mp hw
  rcases List.mem_append.mp hr with hr | hr
  · rcases List.mem_append.mp hr with hr | hr
    · exact decodes_of_plainRow w r h hr
    · exact decodes_of_aluRow w r h hr
  · exact decodes_of_miscRow w r h hr

/-- A word that decodes matches the row of its instruction, since it is that instruction's encoding. -/
theorem ownRow_of_decodeWord (w : Word) (i : Instr) (h : decodeWord w = .ok i) :
    ∃ r ∈ opcodeTable, r.matchesWord w = true ∧ r.mnemonic = i.mnemonic := by
  obtain ⟨r, hr, hname, hmatch⟩ := Laws.EncodesInOwnRow.every_instr i
  rw [encode_of_decodeWord w i h] at hmatch
  exact ⟨r, hr, hmatch, hname⟩

/-- Settles O4: a decoded word matches its instruction's own row, and a row fixes every field the decoder tests. -/
theorem decoderAcceptsExactlyTheTable : Obligations.DecoderAcceptsExactlyTheTable := by
  unfold Obligations.DecoderAcceptsExactlyTheTable
  refine ⟨fun w => ⟨?_, decodes_of_legalWord w⟩, ownRow_of_decodeWord⟩
  rintro ⟨i, h⟩
  obtain ⟨r, hr, hmatch, -⟩ := ownRow_of_decodeWord w i h
  exact List.any_eq_true.mpr ⟨r, hr, hmatch⟩

/-- Settles O1: each word is written out, so the decoder runs on it. -/
theorem writtenWordsDecode : Obligations.WrittenWordsDecode := by
  unfold Obligations.WrittenWordsDecode
  decide

end Sys2Proof

/-! ## What an execution does: the fault it raises, or its effect (40_cycle.md R124, R125)

`exec` stated once without its branches, so that a rule about every instruction is a rule about one chain of updates
and about `State.raise`. -/

namespace Sys2Proof.Machine

/-! ### The frames of the block transfers (R197, R198) -/

section Transfer

variable (s : State) (n : Nat)

@[simp] theorem State.storeV_v : (s.storeV n).v = s.v := by
  obtain ⟨m, h, -⟩ := s.storeV_eq n; rw [h]
@[simp] theorem State.storeV_pc : (s.storeV n).pc = s.pc := by
  obtain ⟨m, h, -⟩ := s.storeV_eq n; rw [h]
@[simp] theorem State.storeV_stack : (s.storeV n).stack = s.stack := by
  obtain ⟨m, h, -⟩ := s.storeV_eq n; rw [h]
@[simp] theorem State.storeV_sp : (s.storeV n).sp = s.sp := by
  obtain ⟨m, h, -⟩ := s.storeV_eq n; rw [h]
@[simp] theorem State.storeV_dt : (s.storeV n).dt = s.dt := by
  obtain ⟨m, h, -⟩ := s.storeV_eq n; rw [h]
@[simp] theorem State.storeV_st : (s.storeV n).st = s.st := by
  obtain ⟨m, h, -⟩ := s.storeV_eq n; rw [h]
@[simp] theorem State.storeV_fb : (s.storeV n).fb = s.fb := by
  obtain ⟨m, h, -⟩ := s.storeV_eq n; rw [h]
@[simp] theorem State.storeV_phase : (s.storeV n).phase = s.phase := by
  obtain ⟨m, h, -⟩ := s.storeV_eq n; rw [h]
@[simp] theorem State.storeV_faultRecord : (s.storeV n).faultRecord = s.faultRecord := by
  obtain ⟨m, h, -⟩ := s.storeV_eq n; rw [h]
@[simp] theorem State.storeV_loaded : (s.storeV n).loaded = s.loaded := by
  obtain ⟨m, h, -⟩ := s.storeV_eq n; rw [h]
@[simp] theorem State.storeV_samples : (s.storeV n).samples = s.samples := by
  obtain ⟨m, h, -⟩ := s.storeV_eq n; rw [h]
@[simp] theorem State.storeV_config : (s.storeV n).config = s.config := by
  obtain ⟨m, h, -⟩ := s.storeV_eq n; rw [h]
@[simp] theorem State.readV_storeV (r : RegIdx) : (s.storeV n).readV r = s.readV r := by
  obtain ⟨m, h, -⟩ := s.storeV_eq n; rw [h]; rfl

@[simp] theorem State.loadV_pc : (s.loadV n).pc = s.pc := by
  obtain ⟨v, h⟩ := s.loadV_eq n; rw [h]
@[simp] theorem State.loadV_stack : (s.loadV n).stack = s.stack := by
  obtain ⟨v, h⟩ := s.loadV_eq n; rw [h]
@[simp] theorem State.loadV_sp : (s.loadV n).sp = s.sp := by
  obtain ⟨v, h⟩ := s.loadV_eq n; rw [h]
@[simp] theorem State.loadV_dt : (s.loadV n).dt = s.dt := by
  obtain ⟨v, h⟩ := s.loadV_eq n; rw [h]
@[simp] theorem State.loadV_st : (s.loadV n).st = s.st := by
  obtain ⟨v, h⟩ := s.loadV_eq n; rw [h]
@[simp] theorem State.loadV_mem : (s.loadV n).mem = s.mem := by
  obtain ⟨v, h⟩ := s.loadV_eq n; rw [h]
@[simp] theorem State.loadV_fb : (s.loadV n).fb = s.fb := by
  obtain ⟨v, h⟩ := s.loadV_eq n; rw [h]
@[simp] theorem State.loadV_phase : (s.loadV n).phase = s.phase := by
  obtain ⟨v, h⟩ := s.loadV_eq n; rw [h]
@[simp] theorem State.loadV_faultRecord : (s.loadV n).faultRecord = s.faultRecord := by
  obtain ⟨v, h⟩ := s.loadV_eq n; rw [h]
@[simp] theorem State.loadV_loaded : (s.loadV n).loaded = s.loaded := by
  obtain ⟨v, h⟩ := s.loadV_eq n; rw [h]
@[simp] theorem State.loadV_samples : (s.loadV n).samples = s.samples := by
  obtain ⟨v, h⟩ := s.loadV_eq n; rw [h]
@[simp] theorem State.loadV_config : (s.loadV n).config = s.config := by
  obtain ⟨v, h⟩ := s.loadV_eq n; rw [h]
@[simp] theorem State.memRead_loadV (m : Nat) : (s.loadV n).memRead m = s.memRead m := by
  obtain ⟨v, h⟩ := s.loadV_eq n; rw [h]; rfl

end Transfer

/-! ### The fault an instruction raises -/

/-- The kind and the info of the fault that `i` raises in `s`, if it raises one (R124). -/
def faultOf (i : Instr) (s : State) : Option (FaultKind × Option Nat) :=
  match i with
  | .call _ => if s.sp.val = 16 then some (.stackOverflow, none) else none
  | .ret => if s.sp.val = 0 then some (.stackUnderflow, none) else none
  | .skp x | .sknp x =>
    if (s.readV x).toNat > 0xF ∧ s.config.keyRangeMode = .fault then some (.keyRange, some (s.readV x).toNat) else none
  | .ldFVx x =>
    if s.config.fontIndexMode = .fault ∧ (s.readV x).toNat > 0xF then some (.fontRange, some (s.readV x).toNat)
    else none
  | _ => none

/-! ### The effect of an instruction that raises none -/

/-- The state of the polled key V[X] in the next snapshot of `key_down` (R231, R232), where the poll does not fault. -/
def polledKey (s : State) (x : RegIdx) : Bool :=
  if (s.readV x).toNat > 0xF ∧ s.config.keyRangeMode = .notDown then false
  else (Config.keyDownSample s.samples).getLsbD ((s.readV x).toNat % 16)

/-- The glyph number FX29 takes from V[X], where it does not fault (R193). -/
def glyphOf (s : State) (x : RegIdx) : Nat :=
  if s.config.fontIndexMode = .lowNibble then (s.readV x).toNat % 16 else (s.readV x).toNat

/-- `Push` where the stack is not full: SP + 1, and the slot at the old SP written (R26). -/
def State.pushed (s : State) (w : Word) : State :=
  { s with stack := s.stack.setIfInBounds s.sp.val w, sp := s.sp + 1 }

/-- `Pop` where the stack is not empty: SP - 1, and the slot below the old SP read (R27). -/
def State.popped (s : State) : State := { s with sp := s.sp - 1 }

@[simp] theorem State.readV_pushed (s : State) (w : Word) (r : RegIdx) : (s.pushed w).readV r = s.readV r := rfl
@[simp] theorem State.memRead_pushed (s : State) (w : Word) (a : Nat) : (s.pushed w).memRead a = s.memRead a := rfl
@[simp] theorem State.readV_popped (s : State) (r : RegIdx) : s.popped.readV r = s.readV r := rfl
@[simp] theorem State.memRead_popped (s : State) (a : Nat) : s.popped.memRead a = s.memRead a := rfl

/-- The newest entry of a stack that is not empty (R27). -/
def State.top (s : State) : Word := s.stack[s.sp.val - 1]'(by omega)

/-- The state an instruction leaves when it raises no fault, as one chain of updates. -/
def effect (i : Instr) (s : State) : State :=
  match i with
  | .cls => s.advance.setFb []
  | .ret => s.popped.setPc s.top.toNat
  | .jp nnn => s.setPc nnn.toNat
  | .call nnn => (s.pushed s.advance.pc).setPc nnn.toNat
  | .seImm x nn => s.advance.skipIf (s.readV x == nn)
  | .sneImm x nn => s.advance.skipIf (s.readV x != nn)
  | .seReg x y => s.advance.skipIf (s.readV x == s.readV y)
  | .ldImm x nn => s.advance.writeV x nn
  | .addImm x nn => s.advance.writeV x (sumByte (s.readV x) nn)
  | .ldReg x y => s.advance.writeV x (s.readV y)
  | .orReg x y => s.advance.writeLogic x (s.readV x ||| s.readV y)
  | .andReg x y => s.advance.writeLogic x (s.readV x &&& s.readV y)
  | .xorReg x y => s.advance.writeLogic x (s.readV x ^^^ s.readV y)
  | .addReg x y => s.advance.writeResult x (sumByte (s.readV x) (s.readV y)) (carryFlag (s.readV x) (s.readV y))
  | .sub x y => s.advance.writeResult x (diffByte (s.readV x) (s.readV y)) (noBorrowFlag (s.readV x) (s.readV y))
  | .shr x y => s.advance.writeResult x (shiftedRight (shiftOperand s x y)) (shiftedOutLow (shiftOperand s x y))
  | .subn x y => s.advance.writeResult x (diffByte (s.readV y) (s.readV x)) (noBorrowFlag (s.readV y) (s.readV x))
  | .shl x y => s.advance.writeResult x (shiftedLeft (shiftOperand s x y)) (shiftedOutHigh (shiftOperand s x y))
  | .sneReg x y => s.advance.skipIf (s.readV x != s.readV y)
  | .ldI nnn => s.advance.setI (nnn.setWidth 16)
  | .jpV0 nnn => s.setPc (nnn.toNat + (s.readV (jumpRegister s nnn)).toNat)
  | .rnd x nn => s.advance.takeSample.writeV x (Config.randDraw s.samples &&& nn)
  | .drw x y n => (s.advance.setFb
      (drawPixels s.fb (s.spritePixels (s.readV x).toNat (s.readV y).toNat n.toNat)).1).writeV vf
      (flagByte (drawPixels s.fb (s.spritePixels (s.readV x).toNat (s.readV y).toNat n.toNat)).2)
  | .skp x => s.advance.takeSample.skipIf (polledKey s x == true)
  | .sknp x => s.advance.takeSample.skipIf (polledKey s x == false)
  | .ldVxDt x => s.advance.writeV x s.dt
  | .ldVxK x => s.advance.setPhase (.waitKey x)
  | .ldDtVx x => s.advance.setDt (s.readV x)
  | .ldStVx x => s.advance.setSt (s.readV x)
  | .addIVx x => s.advance.setI (BitVec.ofNat 16 (s.i.toNat + (s.readV x).toNat))
  | .ldFVx x => s.advance.setI (BitVec.ofNat 16 (5 * glyphOf s x))
  | .ldBVx x => ((s.advance.memWrite s.i.toNat (hundreds (s.readV x))).memWrite (s.i.toNat + 1)
      (tens (s.readV x))).memWrite (s.i.toNat + 2) (ones (s.readV x))
  | .ldIMemVx x => (s.advance.storeV (x.toNat + 1)).setI (indexAfterTransfer s (x.toNat + 1))
  | .ldVxIMem x => (s.advance.loadV (x.toNat + 1)).setI (indexAfterTransfer s (x.toNat + 1))

theorem State.pushed_sp_val (s : State) (w : Word) (h : s.sp.val < 16) : (s.pushed w).sp.val = s.sp.val + 1 :=
  Fin.val_add_one_of_lt' (by omega)

theorem State.popped_sp_val (s : State) (h : s.sp.val ≠ 0) : s.popped.sp.val = s.sp.val - 1 :=
  Fin.sub_val_of_le (Fin.one_le_of_ne_zero (Fin.ne_of_val_ne h))

/-- `CALL` below depth 16. -/
theorem exec_call_of_room (nnn : Addr) (s : State) (h : s.sp.val < 16) :
    exec (.call nnn) s = .next (effect (.call nnn) s) := by
  have hsp : (⟨s.sp.val + 1, by omega⟩ : Fin 17) = s.sp + 1 := Fin.ext (s.pushed_sp_val 0 h).symm
  have hstack (w : Word) : s.stack.set s.sp.val w h = s.stack.setIfInBounds s.sp.val w := by
    apply Vector.ext
    intro j hj
    rw [Vector.getElem_set, Vector.getElem_setIfInBounds]
  rw [exec_call, dif_pos h, hsp, hstack]
  rfl

/-- `RET` above depth 0. -/
theorem exec_ret_of_entry (s : State) (h : s.sp.val ≠ 0) : exec .ret s = .next (effect .ret s) := by
  have hsp : (⟨s.sp.val - 1, by omega⟩ : Fin 17) = s.sp - 1 := Fin.ext (s.popped_sp_val h).symm
  rw [exec_ret, dif_neg h, hsp]
  rfl

/-- An instruction that raises no fault answers its effect. -/
theorem exec_of_no_fault (i : Instr) (s : State) (h : faultOf i s = none) : exec i s = .next (effect i s) := by
  cases i
  case call nnn =>
    have hsp : s.sp.val ≠ 16 := by simpa [faultOf] using h
    exact exec_call_of_room nnn s (by omega)
  case ret => exact exec_ret_of_entry s (by simpa [faultOf] using h)
  case skp x => rw [exec_skp, if_neg (by simpa [faultOf] using h)]; rfl
  case sknp x => rw [exec_sknp, if_neg (by simpa [faultOf] using h)]; rfl
  case ldFVx x => rw [exec_ldFVx, if_neg (by simpa [faultOf] using h)]; rfl
  all_goals rfl

/-- An instruction that raises a fault answers the state before it, halted, with the record of that fault; LoadError is
the host's alone (R303). -/
theorem exec_of_fault (i : Instr) (s : State) (k : FaultKind) (info : Option Nat) (h : faultOf i s = some (k, info)) :
    exec i s = .next (s.raise k (encode i) info) ∧ k ≠ .loadError := by
  cases i
  case call nnn =>
    obtain ⟨hs, hf⟩ := Option.ite_none_right_eq_some.mp h
    cases hf
    rw [exec_call, dif_neg (by omega)]
    exact ⟨rfl, by decide⟩
  case ret =>
    obtain ⟨hs, hf⟩ := Option.ite_none_right_eq_some.mp h
    cases hf
    rw [exec_ret, dif_pos hs]
    exact ⟨rfl, by decide⟩
  case skp x =>
    obtain ⟨hs, hf⟩ := Option.ite_none_right_eq_some.mp h
    cases hf
    rw [exec_skp, if_pos hs]
    exact ⟨rfl, by decide⟩
  case sknp x =>
    obtain ⟨hs, hf⟩ := Option.ite_none_right_eq_some.mp h
    cases hf
    rw [exec_sknp, if_pos hs]
    exact ⟨rfl, by decide⟩
  case ldFVx x =>
    obtain ⟨hs, hf⟩ := Option.ite_none_right_eq_some.mp h
    cases hf
    rw [exec_ldFVx, if_pos hs]
    exact ⟨rfl, by decide⟩
  -- No other instruction has a fault.
  all_goals cases h

/-- Everything an execution can do: take its fault, or have its effect. -/
theorem exec_cases (i : Instr) (s t : State) (h : exec i s = .next t) :
    (∃ k info, faultOf i s = some (k, info) ∧ k ≠ .loadError ∧ t = s.raise k (encode i) info) ∨
    (faultOf i s = none ∧ t = effect i s) := by
  cases hf : faultOf i s with
  | none =>
    rw [exec_of_no_fault i s hf] at h
    exact .inr ⟨rfl, (Host.Outcome.next.inj h).symm⟩
  | some f =>
    obtain ⟨hraise, hk⟩ := exec_of_fault i s f.1 f.2 hf
    rw [hraise] at h
    exact .inl ⟨f.1, f.2, rfl, hk, (Host.Outcome.next.inj h).symm⟩

/-! ### Registers that a write does not name -/

theorem State.readV_writeV_of_ne (s : State) {x r : RegIdx} (b : Byte) (h : r ≠ x) :
    (s.writeV x b).readV r = s.readV r := by
  rw [State.readV_writeV, if_neg (Ne.symm h)]

theorem State.readV_writeResult_of_ne (s : State) {x r : RegIdx} (b : Byte) (c : Bool) (h : r ≠ x) (hf : r ≠ vf) :
    (s.writeResult x b c).readV r = s.readV r := by
  rw [State.readV_writeResult, if_neg (Ne.symm hf), if_neg (Ne.symm h)]

theorem State.readV_writeLogic_of_ne (s : State) {x r : RegIdx} (b : Byte) (h : r ≠ x)
    (hf : ¬ (s.config.logicClearsVf = true ∧ r = vf)) : (s.writeLogic x b).readV r = s.readV r := by
  rw [State.readV_writeLogic, if_neg fun hc => hf ⟨hc.1, hc.2.symm⟩, if_neg (Ne.symm h)]

/-! ### pc after the advance of the cycle (R122, R140) -/

theorem State.advance_pc_toNat (s : State) : s.advance.pc.toNat = (s.pc.toNat + 2) % 0x1000 :=
  s.setPc_pc_toNat _

theorem State.advance_skipIf_pc_toNat (s : State) (b : Bool) :
    (s.advance.skipIf b).pc.toNat = (s.pc.toNat + if b then 4 else 2) % 0x1000 := by
  cases b
  · exact s.advance_pc_toNat
  · refine (s.advance.setPc_pc_toNat _).trans ?_
    rw [State.advance_pc_toNat, Nat.mod_add_mod]
    rfl

/-! ### The frame of an effect, field by field -/

section Frame

variable (i : Instr) (s : State)

theorem effect_readV (r : RegIdx) (hr : ¬ mayWriteV s.config i r) : (effect i s).readV r = s.readV r := by
  cases i
  case ldImm | addImm | ldReg | rnd | ldVxDt => exact State.readV_writeV_of_ne _ _ hr
  case drw => exact State.readV_writeV_of_ne _ _ hr
  case orReg | andReg | xorReg =>
    obtain ⟨hx, hf⟩ := not_or.mp hr
    exact s.advance.readV_writeLogic_of_ne _ hx hf
  case addReg | sub | subn | shr | shl =>
    obtain ⟨hx, hf⟩ := not_or.mp hr
    exact s.advance.readV_writeResult_of_ne _ _ hx hf
  case ldVxIMem x =>
    have hlt : ¬ r.toNat < x.toNat + 1 := fun h => hr (Nat.le_of_lt_succ h)
    exact (s.advance.readV_loadV _ x.isLt r).trans (if_neg hlt)
  all_goals simp [effect]

theorem effect_i (hi : ∀ a x, i ≠ .ldI a ∧ i ≠ .addIVx x ∧ i ≠ .ldFVx x ∧
    (s.config.loadStoreIncrementsI = true → i ≠ .ldIMemVx x ∧ i ≠ .ldVxIMem x)) : (effect i s).i = s.i := by
  cases i
  case ldI a => exact absurd rfl (hi a 0).1
  case addIVx x => obtain ⟨-, hne, -⟩ := hi 0 x; exact absurd rfl hne
  case ldFVx x => obtain ⟨-, -, hne, -⟩ := hi 0 x; exact absurd rfl hne
  case ldIMemVx x =>
    obtain ⟨-, -, -, ht⟩ := hi 0 x
    exact if_neg fun hc => absurd rfl (ht hc).1
  case ldVxIMem x =>
    obtain ⟨-, -, -, ht⟩ := hi 0 x
    exact if_neg fun hc => absurd rfl (ht hc).2
  all_goals simp [effect, State.pushed, State.popped]

theorem effect_stack (hi : ∀ a, i ≠ .call a) : (effect i s).stack = s.stack := by
  cases i
  case call a => exact absurd rfl (hi a)
  all_goals simp [effect, State.popped]

theorem effect_sp (hi : ∀ a, i ≠ .call a ∧ i ≠ .ret) : (effect i s).sp = s.sp := by
  cases i
  case call a => exact absurd rfl (hi a).1
  case ret => exact absurd rfl (hi 0).2
  all_goals simp [effect]

theorem effect_dt (hi : ∀ x, i ≠ .ldDtVx x) : (effect i s).dt = s.dt := by
  cases i
  case ldDtVx x => exact absurd rfl (hi x)
  all_goals simp [effect, State.pushed, State.popped]

theorem effect_st (hi : ∀ x, i ≠ .ldStVx x) : (effect i s).st = s.st := by
  cases i
  case ldStVx x => exact absurd rfl (hi x)
  all_goals simp [effect, State.pushed, State.popped]

theorem effect_mem (hi : ∀ x, i ≠ .ldBVx x ∧ i ≠ .ldIMemVx x) : (effect i s).mem = s.mem := by
  cases i
  case ldBVx x => exact absurd rfl (hi x).1
  case ldIMemVx x => exact absurd rfl (hi x).2
  all_goals simp [effect, State.pushed, State.popped]

theorem effect_phase : (effect i s).phase = s.phase ∨ ∃ x, i = .ldVxK x ∧ (effect i s).phase = .waitKey x := by
  cases i
  case ldVxK x => exact .inr ⟨x, rfl, rfl⟩
  all_goals exact .inl (by simp [effect, State.pushed, State.popped])

@[simp] theorem effect_faultRecord : (effect i s).faultRecord = s.faultRecord := by
  cases i
  all_goals simp [effect, State.pushed, State.popped]

@[simp] theorem effect_loaded : (effect i s).loaded = s.loaded := by
  cases i
  all_goals simp [effect, State.pushed, State.popped]

@[simp] theorem effect_config : (effect i s).config = s.config := by
  cases i
  all_goals simp [effect, State.pushed, State.popped]

theorem effect_samples : s.samples ≤ (effect i s).samples := by
  cases i
  all_goals simp [effect, State.pushed, State.popped]

/-- The instructions that transfer no control leave the pc the cycle advanced (R122): the hypothesis rules out the ten
arms that write pc again, and no update of the others does. -/
theorem effect_pc (h : ∀ a x y n, i ≠ .jp a ∧ i ≠ .call a ∧ i ≠ .jpV0 a ∧ i ≠ .ret ∧ i ≠ .seImm x n ∧
    i ≠ .sneImm x n ∧ i ≠ .seReg x y ∧ i ≠ .sneReg x y ∧ i ≠ .skp x ∧ i ≠ .sknp x) :
    (effect i s).pc = s.advance.pc := by
  cases i
  all_goals simp [effect] at h ⊢

/-- Every effect leaves pc below 0x1000 (R24). -/
theorem effect_pc_lt : (effect i s).pc.toNat < 0x1000 := by
  have hmod (n : Nat) : n % 0x1000 < 0x1000 := Nat.mod_lt _ (by decide)
  cases i
  case ret => exact (State.setPc_pc_toNat _ _).trans_lt (hmod _)
  case jp => exact (State.setPc_pc_toNat _ _).trans_lt (hmod _)
  case call => exact (State.setPc_pc_toNat _ _).trans_lt (hmod _)
  case jpV0 => exact (State.setPc_pc_toNat _ _).trans_lt (hmod _)
  case seImm | sneImm | seReg | sneReg => exact (s.advance_skipIf_pc_toNat _).trans_lt (hmod _)
  case skp | sknp => exact (s.takeSample.advance_skipIf_pc_toNat _).trans_lt (hmod _)
  all_goals
    rw [effect_pc _ s (by simp), State.advance_pc_toNat]
    exact hmod _

/-- Every effect keeps the stack slots below 0x1000: what CALL pushes is an advanced pc (R26). -/
theorem effect_stack_lt (h : ∀ j : Fin 16, s.stack[j].toNat < 0x1000) (j : Fin 16) :
    (effect i s).stack[j].toNat < 0x1000 := by
  cases i
  case call =>
    change ((s.stack.setIfInBounds s.sp.val s.advance.pc)[j.val]).toNat < 0x1000
    rw [Vector.getElem_setIfInBounds]
    split
    · rw [State.advance_pc_toNat]; exact Nat.mod_lt _ (by decide)
    · exact h j
  all_goals
    rw [effect_stack _ s (by simp)]
    exact h j

/-- Every effect keeps memory canonical. -/
theorem effect_mem_wf (h : Memory.wf s.config s.mem = true) : Memory.wf s.config (effect i s).mem = true := by
  cases i
  case ldBVx => exact State.wf_memWrite _ _ _ (State.wf_memWrite _ _ _ (State.wf_memWrite s.advance _ _ h))
  case ldIMemVx x =>
    obtain ⟨m, hm, hwf⟩ := s.advance.storeV_eq (x.toNat + 1)
    simpa [effect, hm] using hwf h
  all_goals
    rw [effect_mem _ s (by simp)]
    exact h

/-- Every effect keeps the framebuffer canonical; a sprite is drawn inside a framebuffer of at least one cell. -/
theorem effect_fb_wf (hc : s.config.Wf) (h : Framebuffer.wf s.config s.fb = true) :
    Framebuffer.wf s.config (effect i s).fb = true := by
  cases i
  case cls => rfl
  case drw x y n =>
    exact drawPixels_wf s.config s.fb _ (s.spritePixels_inside _ _ _ hc) h
  all_goals simpa [effect, State.pushed, State.popped] using h

end Frame

end Sys2Proof.Machine

/-! ## What every instruction leaves alone (10_state.md R22 to R29, 20_memory.md R62, 40_cycle.md R122, R124) -/

namespace Sys2Proof.Machine

/-- Settles O27: a fault writes no register, and an effect writes only those R22 lists. -/
theorem instructionsWriteOnlyTheirRegisters : Obligations.InstructionsWriteOnlyTheirRegisters := by
  unfold Obligations.InstructionsWriteOnlyTheirRegisters
  intro i s t h r hr
  rcases exec_cases i s t h with ⟨k, info, -, -, rfl⟩ | ⟨-, rfl⟩
  · rfl
  · exact effect_readV i s r hr

/-- Settles O28: a fault writes the phase and the record only, and the frame of an effect gives the other fields. -/
theorem instructionsWriteOnlyTheirSpecialRegisters : Obligations.InstructionsWriteOnlyTheirSpecialRegisters := by
  unfold Obligations.InstructionsWriteOnlyTheirSpecialRegisters
  intro i s t h
  rcases exec_cases i s t h with ⟨k, info, -, -, rfl⟩ | ⟨-, rfl⟩
  · simp
  · exact ⟨effect_i i s, effect_stack i s, effect_sp i s, effect_dt i s, effect_st i s,
      (effect_phase i s).imp_right .inl, .inl (effect_faultRecord i s), effect_loaded i s, effect_config i s⟩

/-- A byte none of whose addresses is stored to by FX33 reads as before. -/
theorem effect_ldBVx_memory (x : RegIdx) (s : State) : SameMemoryOutside s.i.toNat 3 s (effect (.ldBVx x) s) := by
  intro a ha
  have h0 : a % 4096 ≠ s.i.toNat % 4096 := ha 0 (by decide)
  rw [effect, State.memRead_memWrite, if_neg (ha 2 (by decide)), State.memRead_memWrite, if_neg (ha 1 (by decide)),
    State.memRead_memWrite, if_neg h0, State.memRead_advance]

/-- A byte none of whose addresses is stored to by FX55 reads as before. -/
theorem effect_ldIMemVx_memory (x : RegIdx) (s : State) :
    SameMemoryOutside s.i.toNat (x.toNat + 1) s (effect (.ldIMemVx x) s) :=
  fun a ha => (s.advance.memRead_storeV _ x.isLt a).2 ha

/-- Memory reads alike where the memory and the parameters are the same. -/
theorem sameMemory_of_eq {s t : State} (hm : t.mem = s.mem) (hc : t.config = s.config) : SameMemory s t := by
  intro a
  rw [State.memRead, State.memRead, hm, hc]

/-- Settles O29: a fault stores nothing, FX33 and FX55 store their bytes, and no other effect writes memory. -/
theorem instructionsStoreOnlyTheirBytes : Obligations.InstructionsStoreOnlyTheirBytes := by
  unfold Obligations.InstructionsStoreOnlyTheirBytes
  intro i s t h
  rcases exec_cases i s t h with ⟨k, info, -, -, rfl⟩ | ⟨-, rfl⟩
  · exact ⟨fun _ _ _ _ => rfl, fun _ _ _ _ => rfl, fun _ _ => rfl⟩
  · refine ⟨?_, ?_, fun hi => sameMemory_of_eq (effect_mem i s hi) (effect_config i s)⟩
    · rintro x rfl; exact effect_ldBVx_memory x s
    · rintro x rfl; exact effect_ldIMemVx_memory x s

/-- An effect never ends Halted when it starts elsewhere: it keeps the phase or suspends in WaitKey. -/
theorem effect_phase_ne_halted (i : Instr) (s : State) (hs : s.phase ≠ .halted) : (effect i s).phase ≠ .halted := by
  rcases effect_phase i s with hp | ⟨x, -, hp⟩
  · rwa [hp]
  · rw [hp]; simp

/-- Settles O30: only a fault ends Halted, and it restores pc; an effect that transfers no control leaves the advanced
pc. -/
theorem otherInstructionsAdvanceByTwo : Obligations.OtherInstructionsAdvanceByTwo := by
  unfold Obligations.OtherInstructionsAdvanceByTwo
  intro i s t hs h
  rcases exec_cases i s t h with ⟨k, info, -, -, rfl⟩ | ⟨-, rfl⟩
  · exact ⟨fun _ => rfl, fun hne => absurd rfl hne⟩
  · refine ⟨fun hh => absurd hh (effect_phase_ne_halted i s (by simp [hs])), fun _ hi => ?_⟩
    rw [effect_pc i s hi, State.advance_pc_toNat]

/-- The conditions of the five faulting instructions (R142, R143, R193, R232), in the words of R124. -/
theorem faultOf_isSome_iff (i : Instr) (s : State) : (faultOf i s).isSome = true ↔
    ((∃ nnn, i = .call nnn) ∧ s.sp = 16) ∨ (i = .ret ∧ s.sp = 0) ∨
    (∃ x, (i = .skp x ∨ i = .sknp x) ∧ (s.readV x).toNat > 0xF ∧ s.config.keyRangeMode = .fault) ∨
    (∃ x, i = .ldFVx x ∧ (s.readV x).toNat > 0xF ∧ s.config.fontIndexMode = .fault) := by
  have hfull : s.sp = 16 ↔ s.sp.val = 16 := Fin.ext_iff
  have hempty : s.sp = 0 ↔ s.sp.val = 0 := Fin.ext_iff
  rw [hfull, hempty]
  cases i
  case call | ret | skp | sknp => simp [faultOf]
  case ldFVx => simp [faultOf, and_comm]
  all_goals simp [faultOf]

/-- Settles O17: an execution ends Halted exactly when it raises its fault. -/
theorem onlyFiveInstructionsFault : Obligations.OnlyFiveInstructionsFault := by
  unfold Obligations.OnlyFiveInstructionsFault
  intro i s hs
  obtain ⟨t, ht⟩ := exec_answers_next i s
  refine ⟨t, ht, ?_⟩
  rw [← faultOf_isSome_iff]
  rcases exec_cases i s t ht with ⟨k, info, hf, -, rfl⟩ | ⟨hf, rfl⟩
  · simp [hf]
  · simp [hf, effect_phase_ne_halted i s (by simp [hs])]

end Sys2Proof.Machine

/-! ## Everything a step can do (40_cycle.md R120 to R129) -/

namespace Sys2Proof.Machine

/-- Everything a cycle from phase Running can do: halt with the address and the word of the instruction, all else as
before it (R123, R125), or have the effect of the decoded instruction and end. -/
theorem runCycle_ends (s t : State) (h : runCycle s = .next t) :
    (∃ k info, k ≠ .loadError ∧ t = s.haltedWith k (fetchWord s) info) ∨
    (∃ i, decodeWord (fetchWord s) = .ok i ∧ faultOf i s = none ∧ t = finishCycle (effect i s)) := by
  rcases runCycle_cases s with ⟨e, -, hr⟩ | ⟨i, u, hd, hu, hr⟩
  · rw [hr] at h
    exact .inl ⟨.decodeError, none, by decide, (Host.Outcome.next.inj h).symm⟩
  · rw [hr] at h
    obtain rfl := Host.Outcome.next.inj h
    rcases exec_cases i s u hu with ⟨k, info, -, hk, rfl⟩ | ⟨hf, rfl⟩
    · refine .inl ⟨k, info, hk, ?_⟩
      rw [encode_of_decodeWord _ i hd]
      rfl
    · exact .inr ⟨i, hd, hf, rfl⟩

/-- Everything a step can do: observe one sample of the wait, undo a cycle that faults, or complete or suspend one. -/
theorem step_ends (s t : State) (h : step s = .next t) :
    (∃ x, s.phase = .waitKey x ∧ t = waitForKey x (Config.keyEventSample s.samples) s) ∨
    (s.Ready ∧ ∃ k info, k ≠ .loadError ∧ t = s.haltedWith k (fetchWord s) info) ∨
    (s.Ready ∧ ∃ i, decodeWord (fetchWord s) = .ok i ∧ t = finishCycle (effect i (s.setPhase .running))) := by
  by_cases hs : s.Ready
  · rw [step_of_ready s hs] at h
    rcases runCycle_ends _ t h with ⟨k, info, hk, rfl⟩ | ⟨i, hd, -, rfl⟩
    · exact .inr (.inl ⟨hs, k, info, hk, rfl⟩)
    · exact .inr (.inr ⟨hs, i, hd, rfl⟩)
  · rcases step_cases s t h with ⟨hp, -⟩ | ⟨hp, hl, -⟩ | ⟨x, hp, rfl⟩
    · exact absurd (.inl hp) hs
    · exact absurd (.inr ⟨hp, hl⟩) hs
    · exact .inl ⟨x, hp, rfl⟩

@[simp] theorem finishCycle_pc (t : State) : (finishCycle t).pc = t.pc := by rw [finishCycle_eq]
@[simp] theorem finishCycle_stack (t : State) : (finishCycle t).stack = t.stack := by rw [finishCycle_eq]
@[simp] theorem finishCycle_mem (t : State) : (finishCycle t).mem = t.mem := by rw [finishCycle_eq]
@[simp] theorem finishCycle_faultRecord (t : State) : (finishCycle t).faultRecord = t.faultRecord := by
  rw [finishCycle_eq]
@[simp] theorem finishCycle_loaded (t : State) : (finishCycle t).loaded = t.loaded := by rw [finishCycle_eq]
@[simp] theorem finishCycle_samples (t : State) : (finishCycle t).samples = t.samples := by rw [finishCycle_eq]
@[simp] theorem finishCycle_config (t : State) : (finishCycle t).config = t.config := by rw [finishCycle_eq]

/-- Settles O25: on each of a step's three ends `loaded` and the parameters are the state's own, and a sample is only
ever added. -/
theorem stepKeepsLoadMarkAndParameters : Obligations.StepKeepsLoadMarkAndParameters := by
  unfold Obligations.StepKeepsLoadMarkAndParameters
  intro s t h
  rcases step_ends s t h with ⟨x, -, rfl⟩ | ⟨-, k, info, -, rfl⟩ | ⟨-, i, -, rfl⟩
  · cases Config.keyEventSample s.samples <;> exact ⟨rfl, rfl, Nat.le_succ _⟩
  · exact ⟨rfl, rfl, le_rfl⟩
  · rw [finishCycle_loaded, finishCycle_config, finishCycle_samples]
    exact ⟨effect_loaded i _, effect_config i _, effect_samples i (s.setPhase .running)⟩

/-- Settles O16: of a step's ends only the undone cycle is Halted: a wake-up is Running, a wait stays WaitKey, and an
effect keeps Running or suspends. -/
theorem faultingCycleIsUndone : Obligations.FaultingCycleIsUndone := by
  unfold Obligations.FaultingCycleIsUndone
  intro s t h ht
  rcases step_ends s t h with ⟨x, hp, rfl⟩ | ⟨-, k, info, hk, rfl⟩ | ⟨-, i, -, rfl⟩
  · cases he : Config.keyEventSample s.samples with
    | none => simp [he, waitForKey, hp] at ht
    | some e => simp [he, waitForKey] at ht
  · exact ⟨k, info, rfl, hk⟩
  · rw [finishCycle_phase] at ht
    exact absurd ht (effect_phase_ne_halted i _ (by simp))

/-- Settles O13: the step of a Ready state is the cycle, whose end is the timer step exactly when it completed. -/
theorem stepRunsTheDecodedInstruction : Obligations.StepRunsTheDecodedInstruction := by
  unfold Obligations.StepRunsTheDecodedInstruction
  intro s i hs hd
  obtain ⟨t, ht, hr⟩ := runCycle_of_decode (s.setPhase .running) i hd
  refine ⟨t, ht, fun hp => ?_, fun hp => ?_⟩
  · rw [step_of_ready s hs, hr, finishCycle_of_running t hp]
    rfl
  · rw [step_of_ready s hs, hr, finishCycle_of_not_running t hp]

/-- A cycle that finds no instruction raises DecodeError (R123). -/
theorem runCycle_of_reject (s : State) (e : Reject) (hd : decodeWord (fetchWord s) = .error e) :
    runCycle s = .next (s.raise .decodeError (fetchWord s) none) := by
  rcases runCycle_cases s with ⟨-, -, hr⟩ | ⟨i, u, hi, -, -⟩
  · exact hr
  · rw [hd] at hi; cases hi

/-- Settles O15: the cycle of a word that is no instruction raises DecodeError, whose record is read from the state
before it. -/
theorem undecodableWordHalts : Obligations.UndecodableWordHalts := by
  unfold Obligations.UndecodableWordHalts
  intro s e hs hd
  rw [step_of_ready s hs, runCycle_of_reject (s.setPhase .running) e hd]
  rfl

/-! ### The word that withFetchWord places (log 3) -/

/-- A word laid out by `withFetchWord` is read back at pc: the two addresses differ, mod 4096 too. -/
theorem fetchWord_of_placed (s : State) (w : Word) :
    fetchWord ((s.memWrite s.pc.toNat (w.extractLsb' 8 8)).memWrite (s.pc.toNat + 1) (w.extractLsb' 0 8)) = w := by
  have hne : s.pc.toNat % 4096 ≠ (s.pc.toNat + 1) % 4096 := by omega
  simp only [fetchWord, State.memWrite_pc, State.memRead_memWrite, if_neg hne, if_true]
  exact wordOfBytes_bytesOfWord w

theorem tableWord_toNat (w : Word) : tableWord 16 w.toNat = w := by
  rw [tableWord, Nat.mod_eq_of_lt w.isLt, BitVec.ofNat_toNat, BitVec.setWidth_eq]

theorem fetchWord_withFetchWord (s : State) (w : Word) : fetchWord (s.withFetchWord 16 w.toNat) = w := by
  unfold State.withFetchWord
  rw [tableWord_toNat]
  cases s.phase <;> exact fetchWord_of_placed s w

/-- Where the statement of O14 places a word, the machine then accepts a cycle. -/
theorem ready_withFetchWord (s : State) (n w : Nat) (h : s.phase = .idle ∨ s.phase = .running ∨ s.phase = .halted) :
    (s.withFetchWord n w).Ready := by
  unfold State.withFetchWord
  rcases h with hp | hp | hp <;> simp only [hp]
  · exact .inr ⟨hp, rfl⟩
  · exact .inl hp
  · exact .inl rfl

/-- Settles O14: the placed word is fetched and decodes to its instruction, and the machine is Ready for it. -/
theorem placedWordIsFetchedAndRun : Obligations.PlacedWordIsFetchedAndRun := by
  unfold Obligations.PlacedWordIsFetchedAndRun
  intro s i hp
  have hfetch := fetchWord_withFetchWord s (encode i)
  have hready := ready_withFetchWord s 16 (encode i).toNat hp
  obtain ⟨t, ht, hr⟩ := runCycle_of_decode ((s.withFetchWord 16 (encode i).toNat).setPhase .running) i
    (by rw [fetchWord_setPhase, hfetch, decodeWord_encode])
  exact ⟨hfetch, hready, t, ht, by rw [step_of_ready _ hready, hr]⟩

end Sys2Proof.Machine

/-! ## Reset, load and the order of commands (70_reset_and_hazards.md) -/

namespace Sys2Proof.Machine

/-- The reset values (R55), whatever the count of samples, which `reset()` keeps (log 8). -/
theorem afterReset_resetWith (c : Config) (n : Nat) : AfterReset c { State.resetWith c with samples := n } := by
  have hread (r : RegIdx) : (State.resetWith c).readV r = 0 := Vector.getElem_replicate r.isLt
  have hslot (j : Fin 16) : (State.resetWith c).stack[j] = 0 := Vector.getElem_replicate j.isLt
  have hmem (a : Nat) (ha : a < 4096) : (State.resetWith c).memRead a = Memory.initial c a :=
    State.memRead_of_nil _ a rfl ha
  have hglyph (g j : Nat) (hg : g < 16) (hj : j < 5) :
      (State.resetWith c).memRead (5 * g + j) = (c.font[g]'hg)[j]'hj := by
    rw [hmem _ (by omega), Memory.initial_glyph c g j hg hj]
  have habove (a : Nat) (hlo : 0x50 ≤ a) (hhi : a < 0x1000) : (State.resetWith c).memRead a = 0 := by
    rw [hmem a hhi, Memory.initial_above c a hlo]
  exact ⟨hread, rfl, rfl, rfl, hslot, rfl, rfl, hglyph, habove, Framebuffer.cell_nil, rfl, rfl, rfl, rfl⟩

/-- Settles O6: the reset state is that of the default parameters, and those are written out. -/
theorem resetLeavesTheSpecifiedState : Obligations.ResetLeavesTheSpecifiedState := by
  unfold Obligations.ResetLeavesTheSpecifiedState
  refine ⟨afterReset_resetWith defaultConfig 0, ?_⟩
  decide

/-- `reset()` is accepted outside WaitKey (R300). -/
theorem resetCommand_of_not_waitKey (s : State) (h : ∀ x, s.phase ≠ .waitKey x) :
    resetCommand s = .next (resetState s) := by
  cases hp : s.phase with
  | waitKey x => exact absurd hp (h x)
  | idle => simp only [resetCommand, hp]
  | running => simp only [resetCommand, hp]
  | halted => simp only [resetCommand, hp]

/-- In WaitKey `reset()` cannot be issued (log 15). -/
theorem resetCommand_of_waitKey (s : State) (x : RegIdx) (h : s.phase = .waitKey x) :
    resetCommand s = .refused .commandInWait := by simp only [resetCommand, h]

/-- Settles O7: the reset state is a function of the parameters and the count of samples, which it keeps. -/
theorem resetCommandIsIdempotent : Obligations.ResetCommandIsIdempotent := by
  unfold Obligations.ResetCommandIsIdempotent
  refine fun s => ⟨fun hw => ?_, resetCommand_of_waitKey s⟩
  exact ⟨resetState s, resetCommand_of_not_waitKey s hw, afterReset_resetWith s.config s.samples,
    resetCommand_of_not_waitKey (resetState s) fun x => Phase.noConfusion⟩

section Load

variable (bytes : List Byte) (s : State)

/-- `load_program` out of order is refused (R306). -/
theorem loadProgram_out_of_order (h : s.phase ≠ .idle ∨ s.loaded = true) :
    loadProgram bytes s = .refused .loadOutOfOrder := by
  refine if_neg fun hn => ?_
  rcases h with h | h
  · exact h hn.1
  · rw [hn.2] at h; cases h

variable (hp : s.phase = .idle) (hl : s.loaded = false)
include hp hl

/-- `load_program` of an image above 3584 bytes halts with LoadError (R303). -/
theorem loadProgram_of_too_long (h : 3584 < bytes.length) :
    loadProgram bytes s = .next (s.halt ⟨.loadError, 0, 0, some bytes.length⟩) := by
  rw [loadProgram, if_pos ⟨hp, hl⟩, if_pos h]

/-- `load_program` of an image of at most 3584 bytes copies it to 0x200 and sets `loaded` (R302). -/
theorem loadProgram_of_fits (h : bytes.length ≤ 3584) :
    loadProgram bytes s = .next { copyBytes bytes 0x200 s with loaded := true } := by
  rw [loadProgram, if_pos ⟨hp, hl⟩, if_neg (Nat.not_lt.mpr h)]

end Load

/-- Everything an accepted `load_program` can do. -/
theorem loadProgram_cases (bytes : List Byte) (s t : State) (h : loadProgram bytes s = .next t) :
    s.phase = .idle ∧ s.loaded = false ∧
      (t = s.halt ⟨.loadError, 0, 0, some bytes.length⟩ ∨ t = { copyBytes bytes 0x200 s with loaded := true }) := by
  by_cases ho : s.phase = .idle ∧ s.loaded = false
  · obtain ⟨hp, hl⟩ := ho
    refine ⟨hp, hl, ?_⟩
    rcases Nat.lt_or_ge 3584 bytes.length with hlen | hlen
    · rw [loadProgram_of_too_long bytes s hp hl hlen] at h
      exact .inl (Host.Outcome.next.inj h).symm
    · rw [loadProgram_of_fits bytes s hp hl hlen] at h
      exact .inr (Host.Outcome.next.inj h).symm
  · rw [loadProgram, if_neg ho] at h; cases h

/-- Settles O8: an image that fits ends at 0x1000, so no copied byte wraps onto another, and copying changes memory
only. -/
theorem loadPlacesTheImage : Obligations.LoadPlacesTheImage := by
  unfold Obligations.LoadPlacesTheImage
  intro s bytes hp hl hlen
  obtain ⟨himage, hrest⟩ := memRead_copyBytes bytes 0x200 s (by omega)
  obtain ⟨m, hm, -⟩ := copyBytes_eq bytes 0x200 s
  refine ⟨_, loadProgram_of_fits bytes s hp hl hlen, himage, hrest, rfl, ?_⟩
  rw [hm]

/-- Settles O9: the LoadError is taken as a halt of the state before it. -/
theorem loadOfTooLongAnImageHalts : Obligations.LoadOfTooLongAnImageHalts := by
  unfold Obligations.LoadOfTooLongAnImageHalts
  exact fun s bytes hp hl hlen => loadProgram_of_too_long bytes s hp hl hlen

/-- `execute_cycle()` and a step with nothing loaded are refused (R127). -/
theorem cycle_before_load (s : State) (hp : s.phase = .idle) (hl : s.loaded = false) :
    executeCycle s = .refused .cycleBeforeLoad ∧ step s = .refused .cycleBeforeLoad := by
  simp [step, executeCycle, hp, hl]

/-- `execute_cycle()` and a step in Halted are refused (R128). -/
theorem cycle_in_halted (s : State) (hp : s.phase = .halted) :
    executeCycle s = .refused .cycleInHalted ∧ step s = .refused .cycleInHalted := by
  simp [step, executeCycle, hp]

/-- Settles O10: each command names its own refusal. -/
theorem commandsOutOfOrderAreRefused : Obligations.CommandsOutOfOrderAreRefused := by
  unfold Obligations.CommandsOutOfOrderAreRefused
  exact fun s => ⟨fun bytes => loadProgram_out_of_order bytes s, cycle_before_load s, cycle_in_halted s⟩

/-- A marked run stays marked under one host action. -/
theorem Run.act_mark_ne_none (r : Run) (a : HostAction) (h : r.mark ≠ none) : (r.act a).mark ≠ none := by
  rcases r.act_cases a with ⟨t, -, ha⟩ | ⟨why, -, ha⟩
  · rw [ha]; exact h
  · rw [ha]; exact Option.some_ne_none _

/-- A marked run stays marked under any host actions. -/
theorem Run.acts_mark_ne_none (r : Run) (actions : List HostAction) (h : r.mark ≠ none) :
    (r.acts actions).mark ≠ none := by
  induction actions generalizing r with
  | nil => exact h
  | cons a as ih => rw [Run.acts_cons]; exact ih (r.act a) (r.act_mark_ne_none a h)

/-- Settles O11: what one action does to the run, and the mark's persistence over the list of actions. -/
theorem refusalMarksTheRunForGood : Obligations.RefusalMarksTheRunForGood := by
  unfold Obligations.RefusalMarksTheRunForGood
  refine ⟨fun r a why h => ?_, fun r a t h => ?_, fun r actions h => ?_⟩
  · rcases r.act_cases a with ⟨t, ht, -⟩ | ⟨why', -, ha⟩
    · rw [h] at ht; cases ht
    · rw [ha]; exact ⟨rfl, Option.some_ne_none _⟩
  · rcases r.act_cases a with ⟨u, hu, ha⟩ | ⟨why, hw, -⟩
    · rw [h] at hu; cases hu
      rw [ha]; exact ⟨rfl, rfl⟩
    · rw [h] at hw; cases hw
  · have hmark := r.acts_mark_ne_none actions h
    exact ⟨hmark, fun P hclaim => hmark hclaim.1⟩

/-- Settles O12: in Halted a load and a cycle are refused and a key event is ignored; `reset()` is accepted. -/
theorem onlyResetLeavesHalted : Obligations.OnlyResetLeavesHalted := by
  unfold Obligations.OnlyResetLeavesHalted
  intro s hp
  have hw (x : RegIdx) : s.phase ≠ .waitKey x := by rw [hp]; exact Phase.noConfusion
  refine ⟨fun a t ha h => ?_, resetState s, resetCommand_of_not_waitKey s hw, rfl⟩
  cases a with
  | reset => exact absurd rfl ha
  | loadProgram bytes =>
    obtain ⟨hidle, -⟩ := loadProgram_cases bytes s t h
    rw [hp] at hidle; cases hidle
  | executeCycle =>
    rw [hostAction, (cycle_in_halted s hp).1] at h; cases h
  | keyEvent k =>
    rw [hostAction, keyEvent_of_not_waitKey s k hw] at h
    exact (Host.Outcome.next.inj h).symm

end Sys2Proof.Machine

/-! ## The wait (45_keypad.md R235 to R238) -/

namespace Sys2Proof.Machine

/-- The wake-up puts the code of the key in V[x] (R237). -/
theorem readV_keyArrives_same (x : RegIdx) (k : Nibble) (s : State) :
    ((keyArrives x k s).readV x).toNat = k.toNat := by
  rw [keyArrives, State.readV_timerStep, State.readV_setPhase, State.readV_writeV, if_pos rfl, BitVec.toNat_setWidth,
    Nat.mod_eq_of_lt (by omega)]

/-- The wake-up leaves the other registers alone. -/
theorem keyArrives_sameRegistersBut (x : RegIdx) (k : Nibble) (s : State) :
    SameRegistersBut [x] s (keyArrives x k s) :=
  fun _ hr => s.readV_writeV_of_ne _ fun h => hr (List.mem_singleton.mpr h)

/-- The wake-up runs one timer step (R237, R250). -/
theorem keyArrives_timers (x : RegIdx) (k : Nibble) (s : State) :
    (keyArrives x k s).dt.toNat = s.dt.toNat - 1 ∧ (keyArrives x k s).st.toNat = s.st.toNat - 1 :=
  ⟨countDown_toNat s.dt, countDown_toNat s.st⟩

/-- Settles O20: in WaitKey the event is the wake-up, elsewhere it is ignored. -/
theorem keyEventCompletesTheWait : Obligations.KeyEventCompletesTheWait := by
  unfold Obligations.KeyEventCompletesTheWait
  refine fun s k => ⟨fun x hp => ?_, keyEvent_of_not_waitKey s k⟩
  rw [keyEvent_of_waitKey s x k hp]
  obtain ⟨hdt, hst⟩ := keyArrives_timers x k s
  exact ⟨readV_keyArrives_same x k s, keyArrives_sameRegistersBut x k s, hdt, hst, rfl⟩

/-- In WaitKey `execute_cycle()` cannot be issued (R129; log 15). -/
theorem executeCycle_of_waitKey (s : State) (x : RegIdx) (h : s.phase = .waitKey x) :
    executeCycle s = .refused .commandInWait := by simp only [executeCycle, h]

/-- In WaitKey a step is one observation of the input `key_event` (R236; log 7). -/
theorem step_of_waitKey (s : State) (x : RegIdx) (h : s.phase = .waitKey x) :
    step s = .next (waitForKey x (Config.keyEventSample s.samples) s) := by simp only [step, h]

/-- Settles O21: the observation of a step in WaitKey finds no event or is the wake-up. -/
theorem waitChangesNothingUntilAKeyEvent : Obligations.WaitChangesNothingUntilAKeyEvent := by
  unfold Obligations.WaitChangesNothingUntilAKeyEvent
  intro s x hp
  refine ⟨executeCycle_of_waitKey s x hp, ?_⟩
  rw [step_of_waitKey s x hp]
  cases Config.keyEventSample s.samples with
  | none => rfl
  | some k => simp only [keyEvent_of_waitKey s x k hp]; rfl

/-- `LD Vx, K` suspends: the advance of the cycle and the phase WaitKey(X) (R235). -/
theorem exec_ldVxK (x : RegIdx) (s : State) : exec (.ldVxK x) s = .next (s.advance.setPhase (.waitKey x)) := rfl

/-- Settles O56: the suspended state, and the wake-up from it. -/
theorem keyWaitSuspendsAndCompletes : Obligations.KeyWaitSuspendsAndCompletes := by
  unfold Obligations.KeyWaitSuspendsAndCompletes
  intro x s
  refine ⟨decodeWord_encode (.ldVxK x), _, exec_ldVxK x s, rfl, s.advance_pc_toNat, rfl, fun k => ?_⟩
  rw [keyEvent_of_waitKey _ x k rfl]
  obtain ⟨hdt, hst⟩ := keyArrives_timers x k (s.advance.setPhase (.waitKey x))
  exact ⟨rfl, readV_keyArrives_same x k _, keyArrives_sameRegistersBut x k _, rfl, hdt, hst, fun _ => rfl, rfl, rfl,
    rfl, rfl⟩

end Sys2Proof.Machine

/-! ## The legal states (10_state.md R24, R26, R40 to R42) -/

namespace Sys2Proof.Machine

/-! ### The control state of a legal state, phase by phase -/

theorem phaseFits_of_idle (s : State) (hp : s.phase = .idle) : phaseFits s = true ↔ s.faultRecord = none := by
  simp [phaseFits, hp]

theorem phaseFits_of_live (s : State) (hp : s.phase = .running ∨ ∃ x, s.phase = .waitKey x) :
    phaseFits s = true ↔ s.faultRecord = none ∧ s.loaded = true := by
  rcases hp with hp | ⟨x, hp⟩ <;> simp [phaseFits, hp]

/-- A Ready legal state has no fault record and an image. -/
theorem live_of_ready (s : State) (hs : s.Ready) (h : phaseFits s = true) :
    s.faultRecord = none ∧ s.loaded = true := by
  rcases hs with hp | ⟨hp, hl⟩
  · exact (phaseFits_of_live s (.inl hp)).mp h
  · exact ⟨(phaseFits_of_idle s hp).mp h, hl⟩

/-! ### Each end of a step keeps the invariant -/

theorem inv_setPhase_running (s : State) (h : s.Inv) (hs : s.Ready) : (s.setPhase .running).Inv := by
  obtain ⟨hc, hm, hf, hpc, hst, hph⟩ := h
  exact ⟨hc, hm, hf, hpc, hst, (phaseFits_of_live _ (.inl rfl)).mpr (live_of_ready s hs hph)⟩

theorem inv_effect (i : Instr) (s : State) (h : s.Inv) (hp : s.phase = .running) : (effect i s).Inv := by
  obtain ⟨hc, hm, hf, hpc, hst, hph⟩ := h
  have hlive : (effect i s).phase = .running ∨ ∃ x, (effect i s).phase = .waitKey x :=
    (effect_phase i s).imp (·.trans hp) fun ⟨x, _, hx⟩ => ⟨x, hx⟩
  rw [State.Inv, effect_config, phaseFits_of_live _ hlive, effect_faultRecord, effect_loaded]
  exact ⟨hc, effect_mem_wf i s hm, effect_fb_wf i s hc hf, effect_pc_lt i s, effect_stack_lt i s hst,
    (phaseFits_of_live s (.inl hp)).mp hph⟩

theorem inv_finishCycle (t : State) (h : t.Inv) : (finishCycle t).Inv := by
  rw [finishCycle_eq]
  exact h

/-- A fault record that a cycle writes fits: it holds the state's own pc and fetched word, and an image is loaded. -/
theorem inv_haltedWith (s : State) (k : FaultKind) (info : Option Nat) (h : s.Inv) (hs : s.Ready)
    (hk : k ≠ .loadError) : (s.haltedWith k (fetchWord s) info).Inv := by
  obtain ⟨hc, hm, hf, hpc, hst, hph⟩ := h
  obtain ⟨-, hl⟩ := live_of_ready s hs hph
  have hfit : recordFits (s.haltedWith k (fetchWord s) info) ⟨k, s.pc, fetchWord s, info⟩ = true := by
    have hw : fetchWord (s.haltedWith k (fetchWord s) info) = fetchWord s := rfl
    cases k
    case loadError => exact absurd rfl hk
    all_goals simp [recordFits, hl, hw]
  exact ⟨hc, hm, hf, hpc, hst, hfit⟩

theorem inv_keyArrives (x : RegIdx) (k : Nibble) (s : State) (h : s.Inv) (hp : s.phase = .waitKey x) :
    (keyArrives x k s).Inv := by
  obtain ⟨hc, hm, hf, hpc, hst, hph⟩ := h
  exact ⟨hc, hm, hf, hpc, hst, (phaseFits_of_live _ (.inl rfl)).mpr
    ((phaseFits_of_live s (.inr ⟨x, hp⟩)).mp hph)⟩

theorem inv_takeSample (s : State) (h : s.Inv) : s.takeSample.Inv := h

theorem inv_waitForKey (x : RegIdx) (event : Option Nibble) (s : State) (h : s.Inv) (hp : s.phase = .waitKey x) :
    (waitForKey x event s).Inv := by
  cases event with
  | none => exact inv_takeSample s h
  | some k => exact inv_takeSample _ (inv_keyArrives x k s h hp)

theorem inv_step (s t : State) (h : s.Inv) (ht : step s = .next t) : t.Inv := by
  rcases step_ends s t ht with ⟨x, hp, rfl⟩ | ⟨hs, k, info, hk, rfl⟩ | ⟨hs, i, -, rfl⟩
  · exact inv_waitForKey x _ s h hp
  · exact inv_haltedWith s k info h hs hk
  · exact inv_finishCycle _ (inv_effect i _ (inv_setPhase_running s h hs) rfl)

/-- Settles O23: each of a step's three ends keeps the invariant. -/
theorem stepKeepsLegal : Obligations.StepKeepsLegal := by
  unfold Obligations.StepKeepsLegal
  exact inv_step

/-! ### Each host action keeps the invariant -/

theorem inv_resetWith (c : Config) (n : Nat) (hc : c.Wf) : ({ State.resetWith c with samples := n } : State).Inv := by
  have hslot (j : Fin 16) : (State.resetWith c).stack[j] = 0 := Vector.getElem_replicate j.isLt
  refine ⟨hc, rfl, rfl, show (0x200 : Word).toNat < 0x1000 by decide, fun j => ?_, rfl⟩
  rw [hslot]
  decide

/-- Settles O22: the reset values at the default parameters, whose framebuffer is 64 x 32. -/
theorem resetIsLegal : Obligations.ResetIsLegal := by
  unfold Obligations.ResetIsLegal
  exact inv_resetWith defaultConfig 0 (by decide)

theorem inv_loadProgram (bytes : List Byte) (s t : State) (h : s.Inv) (ht : loadProgram bytes s = .next t) :
    t.Inv := by
  obtain ⟨hp, hl, hend⟩ := loadProgram_cases bytes s t ht
  obtain ⟨hc, hm, hf, hpc, hst, hph⟩ := h
  rcases hend with rfl | rfl
  · have hfit : recordFits (s.halt ⟨.loadError, 0, 0, some bytes.length⟩)
        ⟨.loadError, 0, 0, some bytes.length⟩ = true := by simp [recordFits, hl]
    exact ⟨hc, hm, hf, hpc, hst, hfit⟩
  · obtain ⟨m, hm', hwf⟩ := copyBytes_eq bytes 0x200 s
    rw [hm']
    refine ⟨hc, hwf hm, hf, hpc, hst, (phaseFits_of_idle _ ?_).mpr ((phaseFits_of_idle s hp).mp hph)⟩
    exact hp

theorem inv_resetCommand (s t : State) (h : s.Inv) (ht : resetCommand s = .next t) : t.Inv := by
  by_cases hw : ∃ x, s.phase = .waitKey x
  · obtain ⟨x, hx⟩ := hw
    rw [resetCommand_of_waitKey s x hx] at ht; cases ht
  · rw [resetCommand_of_not_waitKey s fun x hx => hw ⟨x, hx⟩] at ht
    obtain rfl := Host.Outcome.next.inj ht
    exact inv_resetWith s.config s.samples h.1

theorem inv_keyEvent (k : Nibble) (s : State) (h : s.Inv) : (keyEvent k s).Inv := by
  by_cases hw : ∃ x, s.phase = .waitKey x
  · obtain ⟨x, hx⟩ := hw
    rw [keyEvent_of_waitKey s x k hx]
    exact inv_keyArrives x k s h hx
  · rw [keyEvent_of_not_waitKey s k fun x hx => hw ⟨x, hx⟩]
    exact h

/-- Settles O24: an accepted `execute_cycle()` is a step; the other actions keep the invariant by their own rules. -/
theorem hostActionsKeepLegal : Obligations.HostActionsKeepLegal := by
  unfold Obligations.HostActionsKeepLegal
  intro s t a h ht
  cases a with
  | reset => exact inv_resetCommand s t h ht
  | loadProgram bytes => exact inv_loadProgram bytes s t h ht
  | executeCycle => exact inv_step s t h (step_of_executeCycle s t ht)
  | keyEvent k =>
    obtain rfl := Host.Outcome.next.inj ht
    exact inv_keyEvent k s h

end Sys2Proof.Machine

/-! ## A jump to itself (41_control_transfer.md R141, 70_reset_and_hazards.md R307) -/

namespace Sys2Proof.Machine

/-- The state accepts a cycle, and the word at pc is the jump to pc. -/
def SelfJump (nnn : Addr) (s : State) : Prop :=
  s.Ready ∧ s.pc.toNat = nnn.toNat ∧ decodeWord (fetchWord s) = .ok (.jp nnn)

variable {nnn : Addr} {s t : State} {k : Nat}

/-- A jump to itself steps, to a state with the same pc that jumps to itself again. -/
theorem SelfJump.step (h : SelfJump nnn s) : ∃ t, step s = .next t ∧ SelfJump nnn t ∧ t.pc = s.pc := by
  obtain ⟨hs, hpc, hd⟩ := h
  obtain ⟨u, hu, hr⟩ := runCycle_of_decode (s.setPhase .running) (.jp nnn) hd
  rw [exec_jp] at hu
  obtain rfl := Host.Outcome.next.inj hu
  rw [finishCycle_of_running _ rfl] at hr
  have hpc' : ((s.setPhase .running).setPc nnn.toNat).timerStep.pc.toNat = nnn.toNat :=
    (s.setPhase .running).setPc_addr_pc_toNat nnn
  have hsame : ((s.setPhase .running).setPc nnn.toNat).timerStep.pc = s.pc :=
    BitVec.eq_of_toNat_eq (hpc'.trans hpc.symm)
  refine ⟨_, (step_of_ready s hs).trans hr, ⟨.inl rfl, hpc', ?_⟩, hsame⟩
  rw [fetchWord, hsame]
  exact hd

theorem SelfJump.stepsTo (h : SelfJump nnn s) (ht : StepsTo k s t) : SelfJump nnn t ∧ t.pc = s.pc := by
  induction k generalizing s with
  | zero => obtain rfl : s = t := ht; exact ⟨h, rfl⟩
  | succ k ih =>
    obtain ⟨u, hu, hut⟩ := ht
    obtain ⟨u', hu', hjump, hpc⟩ := h.step
    obtain rfl := Host.Outcome.next.inj (hu'.symm.trans hu)
    obtain ⟨hend, hpc'⟩ := ih hjump hut
    exact ⟨hend, hpc'.trans hpc⟩

theorem SelfJump.stepsTo_exists (h : SelfJump nnn s) (k : Nat) : ∃ t, StepsTo k s t := by
  induction k generalizing s with
  | zero => exact ⟨s, rfl⟩
  | succ k ih =>
    obtain ⟨u, hu, hjump, -⟩ := h.step
    obtain ⟨t, ht⟩ := ih hjump
    exact ⟨t, u, hu, ht⟩

theorem SelfJump.safe (h : SelfJump nnn s) : Safe s := by
  intro k t ht
  obtain ⟨hjump, -⟩ := h.stepsTo ht
  obtain ⟨u, hu, -, -⟩ := hjump.step
  refine ⟨fun hp => ?_, fun why hw => ?_⟩
  · rcases hjump.1 with hr | ⟨hr, -⟩ <;> rw [hp] at hr <;> cases hr
  · rw [hu] at hw; cases hw

/-- Settles O32: jumping to itself is kept by every step. -/
theorem jumpToItselfIsSafe : Obligations.JumpToItselfIsSafe := by
  unfold Obligations.JumpToItselfIsSafe
  intro s nnn hs hpc hd
  have h : SelfJump nnn s := ⟨hs, hpc, hd⟩
  exact ⟨h.safe, fun k t ht => (h.stepsTo ht).2, h.stepsTo_exists⟩

end Sys2Proof.Machine

/-! ## Control transfer: calls, returns, skips and the indexed jump (41_control_transfer.md) -/

namespace Sys2Proof.Machine

/-- Settles O33: below depth 16 the effect of CALL, at depth 16 its fault. -/
theorem callPushesAndJumps : Obligations.CallPushesAndJumps := by
  unfold Obligations.CallPushesAndJumps
  refine fun nnn => ⟨decodeWord_encode (.call nnn), fun s => ⟨fun h => ?_, fun h => ?_⟩⟩
  · have hpush : ((effect (.call nnn) s).stack[s.sp.val]'h) = s.advance.pc :=
      Vector.getElem_setIfInBounds_self h
    have hother (j : Fin 16) (hj : j.val ≠ s.sp.val) : (effect (.call nnn) s).stack[j] = s.stack[j] :=
      Vector.getElem_setIfInBounds_ne j.isLt hj.symm
    refine ⟨_, exec_call_of_room nnn s h, State.setPc_addr_pc_toNat _ nnn, s.pushed_sp_val s.advance.pc h, ?_, hother,
      fun _ _ => rfl, rfl, ⟨rfl, rfl⟩, fun _ => rfl, rfl, rfl, rfl, rfl, rfl⟩
    rw [hpush, State.advance_pc_toNat]
  · exact (exec_of_fault (.call nnn) s .stackOverflow none (by simp [faultOf, h])).1

/-- Settles O34: above depth 0 the effect of RET, whose target is stored unwrapped when it is below 0x1000, and at
depth 0 its fault. -/
theorem returnPopsTheNewestEntry : Obligations.ReturnPopsTheNewestEntry := by
  unfold Obligations.ReturnPopsTheNewestEntry
  refine ⟨decodeWord_encode .ret, fun s => ⟨fun h => ?_, fun h => ?_⟩⟩
  · refine ⟨_, exec_ret_of_entry s h, ?_, s.popped_sp_val h, rfl, fun _ _ => rfl, rfl, ⟨rfl, rfl⟩, fun _ => rfl, rfl,
      rfl, rfl, rfl, rfl⟩
    intro target htop hlt
    apply BitVec.eq_of_toNat_eq
    rw [← htop] at hlt ⊢
    exact (State.setPc_pc_toNat _ _).trans (Nat.mod_eq_of_lt hlt)
  · exact (exec_of_fault .ret s .stackUnderflow none (by simp [faultOf, h])).1

/-- A conditional skip (R140): where pc goes, and that nothing else changes. -/
theorem State.advance_skipIf_spec (s : State) (b : Bool) {p : Prop} [Decidable p] (hb : b = true ↔ p) :
    SameRegistersBut [] s (s.advance.skipIf b) ∧ SameBesidesV s (s.advance.skipIf b) ∧
      (s.advance.skipIf b).pc.toNat = (s.pc.toNat + if p then 4 else 2) % 0x1000 := by
  refine ⟨?_, ?_, ?_⟩
  · simp [SameRegistersBut]
  · simp [SameBesidesV, SameStack, SameTimers, SameMemory, SameControl]
  · simp only [State.advance_skipIf_pc_toNat, hb]

/-- Settles O35: each of the four is a conditional skip on its own test. -/
theorem skipsCompareAndSkip : Obligations.SkipsCompareAndSkip := by
  unfold Obligations.SkipsCompareAndSkip
  intro x y nn s
  refine ⟨⟨decodeWord_encode (.seImm x nn), _, rfl, ?_⟩, ⟨decodeWord_encode (.sneImm x nn), _, rfl, ?_⟩,
    ⟨decodeWord_encode (.seReg x y), _, rfl, ?_⟩, decodeWord_encode (.sneReg x y), _, rfl, ?_⟩
  · exact s.advance_skipIf_spec _ beq_iff_eq
  · exact s.advance_skipIf_spec _ bne_iff_ne
  · exact s.advance_skipIf_spec _ beq_iff_eq
  · exact s.advance_skipIf_spec _ bne_iff_ne

/-- The word of BNNN by its register nibble and its low byte. -/
theorem encode_jpV0_append (x : RegIdx) (nn : Byte) : 0xB#4 ++ x ++ nn = encode (.jpV0 (x ++ nn)) :=
  BitVec.append_assoc

/-- The register an indexed jump adds: NNN[11:8] is the register nibble of the address. -/
theorem readV_jumpRegister_append (s : State) (x : RegIdx) (nn : Byte) : s.readV (jumpRegister s (x ++ nn)) =
    if s.config.jumpUsesVx then s.readV x else s.readV 0 := by
  rw [jumpRegister, addr_append_high]
  exact apply_ite s.readV _ _ _

/-- Settles O36: one write to pc, of the address plus the register. -/
theorem indexedJumpAddsARegister : Obligations.IndexedJumpAddsARegister := by
  unfold Obligations.IndexedJumpAddsARegister
  refine fun x nn => ⟨?_, fun s => ?_⟩
  · rw [encode_jpV0_append, decodeWord_encode]
  · refine ⟨effect (.jpV0 (x ++ nn)) s, rfl, ?_, s.setPc_frame _⟩
    rw [effect, State.setPc_pc_toNat, addr_append_toNat, readV_jumpRegister_append]

end Sys2Proof.Machine

/-! ## Arithmetic and logic (42_arithmetic.md) -/

namespace Sys2Proof.Machine

/-! ### The three writes of a result, each with its frame -/

/-- Where a frame lists the registers that may change, a register outside the list is none of them. -/
theorem SameRegistersBut.of_two {x y : RegIdx} {s t : State} (h : ∀ r, r ≠ x → r ≠ y → t.readV r = s.readV r) :
    SameRegistersBut [x, y] s t := by
  intro r hr
  rw [List.mem_pair, not_or] at hr
  exact h r hr.1 hr.2

theorem SameRegistersBut.of_one {x : RegIdx} {s t : State} (h : ∀ r, r ≠ x → t.readV r = s.readV r) :
    SameRegistersBut [x] s t :=
  fun r hr => h r fun he => hr (List.mem_singleton.mpr he)

section Write

variable (s : State) (x : RegIdx) (b : Byte)

/-- A plain write of V[X] after the advance: the value and the frame. -/
theorem State.advance_writeV_spec : (s.advance.writeV x b).readV x = b ∧
    SameRegistersBut [x] s (s.advance.writeV x b) ∧ SameBesidesV s (s.advance.writeV x b) := by
  refine ⟨?_, .of_one fun r hr => State.readV_writeV_of_ne _ b hr, ?_⟩
  · rw [State.readV_writeV, if_pos rfl]
  · simp [SameBesidesV, SameStack, SameTimers, SameMemory, SameControl]

/-- A result and its flag: the flag is in VF, and when X is not F the result is in V[X]. -/
theorem State.advance_writeResult_spec (c : Bool) :
    (x ≠ vf → (s.advance.writeResult x b c).readV x = b) ∧ (s.advance.writeResult x b c).readV vf = flagByte c ∧
    SameRegistersBut [x, vf] s (s.advance.writeResult x b c) ∧ SameBesidesV s (s.advance.writeResult x b c) := by
  refine ⟨fun hx => ?_, ?_, .of_two fun r hr hf => State.readV_writeResult_of_ne _ b c hr hf, ?_⟩
  · rw [State.readV_writeResult, if_neg (Ne.symm hx), if_pos rfl]
  · rw [State.readV_writeResult, if_pos rfl]
  · simp [SameBesidesV, SameStack, SameTimers, SameMemory, SameControl]

/-- The result of a logic operation: VF is cleared after it, or untouched, by LOGIC_CLEARS_VF. -/
theorem State.advance_writeLogic_spec :
    ((s.config.logicClearsVf = true → (s.advance.writeLogic x b).readV vf = 0 ∧
        SameRegistersBut [x, vf] s (s.advance.writeLogic x b)) ∧
      (¬ s.config.logicClearsVf = true → SameRegistersBut [x] s (s.advance.writeLogic x b)) ∧
      SameBesidesV s (s.advance.writeLogic x b)) ∧
    (¬ s.config.logicClearsVf = true ∨ x ≠ vf → (s.advance.writeLogic x b).readV x = b) := by
  refine ⟨⟨fun hc => ⟨?_, .of_two fun r hr hf => ?_⟩, fun hc => .of_one fun r hr => ?_, ?_⟩, fun h => ?_⟩
  · rw [State.readV_writeLogic, if_pos ⟨hc, rfl⟩]
  · exact s.advance.readV_writeLogic_of_ne b hr fun h => hf h.2
  · exact s.advance.readV_writeLogic_of_ne b hr fun h => hc h.1
  · simp [SameBesidesV, SameStack, SameTimers, SameMemory, SameControl]
  · rw [State.readV_writeLogic, if_neg, if_pos rfl]
    rintro ⟨hc, hf⟩
    exact h.elim (fun hn => hn hc) fun hx => hx hf.symm

end Write

@[simp] theorem flagByte_toNat (c : Bool) : (flagByte c).toNat = if c then 1 else 0 := by cases c <;> rfl

/-! ### The instructions -/

/-- Settles O37: one write of V[X]. -/
theorem loadImmediate : Obligations.LoadImmediate := by
  unfold Obligations.LoadImmediate
  exact fun x nn => ⟨decodeWord_encode (.ldImm x nn), fun s => ⟨_, rfl, s.advance_writeV_spec x nn⟩⟩

/-- Settles O38: one write of V[X], of the sum, and no flag. -/
theorem addImmediateWithoutCarry : Obligations.AddImmediateWithoutCarry := by
  unfold Obligations.AddImmediateWithoutCarry
  refine fun x nn => ⟨decodeWord_encode (.addImm x nn), fun s => ?_⟩
  obtain ⟨hx, hframe⟩ := s.advance_writeV_spec x (sumByte (s.readV x) nn)
  refine ⟨_, rfl, ?_, hframe⟩
  rw [hx, sumByte_toNat]

/-- Settles O39: one write of V[X]. -/
theorem copyRegister : Obligations.CopyRegister := by
  unfold Obligations.CopyRegister
  exact fun x y => ⟨decodeWord_encode (.ldReg x y), fun s => ⟨_, rfl, s.advance_writeV_spec x (s.readV y)⟩⟩

/-- Settles O40: the sum, then the carry into VF. -/
theorem addRegistersWithCarry : Obligations.AddRegistersWithCarry := by
  unfold Obligations.AddRegistersWithCarry
  refine fun x y s => ⟨decodeWord_encode (.addReg x y), ?_⟩
  obtain ⟨hx, hf, hframe⟩ := s.advance_writeResult_spec x (sumByte (s.readV x) (s.readV y))
    (carryFlag (s.readV x) (s.readV y))
  refine ⟨_, rfl, fun hne => ?_, ?_, hframe⟩
  · rw [hx hne, sumByte_toNat]
  · rw [hf, flagByte_toNat, carryFlag]
    simp only [decide_eq_true_eq]

/-- A difference of bytes and its flag, written to V[X] and VF: what SUB and SUBN have in common (R165, R166). -/
theorem State.advance_writeDifference_spec (s : State) (x : RegIdx) (a b : Byte) :
    (x ≠ vf → (((s.advance.writeResult x (diffByte a b) (noBorrowFlag a b)).readV x).toNat : Int) =
      (a.toNat - b.toNat : Int) % 256) ∧
    ((s.advance.writeResult x (diffByte a b) (noBorrowFlag a b)).readV vf).toNat =
      (if a.toNat ≥ b.toNat then 1 else 0) ∧
    SameRegistersBut [x, vf] s (s.advance.writeResult x (diffByte a b) (noBorrowFlag a b)) ∧
    SameBesidesV s (s.advance.writeResult x (diffByte a b) (noBorrowFlag a b)) := by
  obtain ⟨hx, hf, hframe⟩ := s.advance_writeResult_spec x (diffByte a b) (noBorrowFlag a b)
  refine ⟨fun hne => ?_, ?_, hframe⟩
  · have ha := a.isLt
    have hb := b.isLt
    rw [hx hne, diffByte_toNat]
    omega
  · rw [hf, flagByte_toNat, noBorrowFlag]
    simp only [decide_eq_true_eq]

/-- Settles O41: SUB and SUBN write a difference, with the operands in the two orders. -/
theorem subtractWithNotBorrow : Obligations.SubtractWithNotBorrow := by
  unfold Obligations.SubtractWithNotBorrow
  refine fun x y s => ⟨decodeWord_encode (.sub x y), decodeWord_encode (.subn x y), ?_, ?_⟩
  · exact ⟨_, rfl, s.advance_writeDifference_spec x (s.readV x) (s.readV y)⟩
  · exact ⟨_, rfl, s.advance_writeDifference_spec x (s.readV y) (s.readV x)⟩

/-- Settles O42: a logic write each, of a bitwise operation. -/
theorem logicIsBitwise : Obligations.LogicIsBitwise := by
  unfold Obligations.LogicIsBitwise
  intro x y s
  refine ⟨decodeWord_encode (.orReg x y), decodeWord_encode (.andReg x y), decodeWord_encode (.xorReg x y), ?_, ?_, ?_⟩
  · obtain ⟨hframe, hx⟩ := s.advance_writeLogic_spec x (s.readV x ||| s.readV y)
    refine ⟨_, rfl, hframe, fun h k _ => ?_⟩
    rw [hx h, BitVec.getLsbD_or]
  · obtain ⟨hframe, hx⟩ := s.advance_writeLogic_spec x (s.readV x &&& s.readV y)
    refine ⟨_, rfl, hframe, fun h k _ => ?_⟩
    rw [hx h, BitVec.getLsbD_and]
  · obtain ⟨hframe, hx⟩ := s.advance_writeLogic_spec x (s.readV x ^^^ s.readV y)
    refine ⟨_, rfl, hframe, fun h k _ => ?_⟩
    rw [hx h, BitVec.getLsbD_xor]

theorem flagByte_shiftedOutLow (v : Byte) : (flagByte (shiftedOutLow v)).toNat = v.toNat % 2 := by
  rw [flagByte_toNat, shiftedOutLow_eq]
  rcases Nat.mod_two_eq_zero_or_one v.toNat with h | h <;> simp [h]

theorem flagByte_shiftedOutHigh (v : Byte) : (flagByte (shiftedOutHigh v)).toNat = v.toNat / 128 := by
  have hv := v.isLt
  rw [flagByte_toNat, shiftedOutHigh_eq]
  simp only [decide_eq_true_eq]
  split <;> omega

/-- Settles O43: the shifted operand, then the bit shifted out into VF. -/
theorem shiftsByOne : Obligations.ShiftsByOne := by
  unfold Obligations.ShiftsByOne
  refine fun x y s => ⟨decodeWord_encode (.shr x y), decodeWord_encode (.shl x y), ?_, ?_⟩
  · obtain ⟨hx, hf, hframe⟩ := s.advance_writeResult_spec x (shiftedRight (shiftOperand s x y))
      (shiftedOutLow (shiftOperand s x y))
    refine ⟨_, rfl, fun hne => ?_, ?_, hframe⟩
    · rw [hx hne, shiftedRight_toNat, shiftOperand]
    · rw [hf, flagByte_shiftedOutLow, shiftOperand]
  · obtain ⟨hx, hf, hframe⟩ := s.advance_writeResult_spec x (shiftedLeft (shiftOperand s x y))
      (shiftedOutHigh (shiftOperand s x y))
    refine ⟨_, rfl, fun hne => ?_, ?_, hframe⟩
    · rw [hx hne, shiftedLeft_toNat, shiftOperand]
    · rw [hf, flagByte_shiftedOutHigh, shiftOperand]

/-- Settles O44: one draw is consumed, and its masked value is the one write of V[X]. -/
theorem randomIsMasked : Obligations.RandomIsMasked := by
  unfold Obligations.RandomIsMasked
  refine fun x nn s => ⟨decodeWord_encode (.rnd x nn), ?_⟩
  obtain ⟨hx, hframe⟩ := s.takeSample.advance_writeV_spec x (Config.randDraw s.samples &&& nn)
  refine ⟨effect (.rnd x nn) s, rfl, fun k _ => ?_, rfl, hframe⟩
  rw [show (effect (.rnd x nn) s).readV x = _ from hx, BitVec.getLsbD_and]

end Sys2Proof.Machine

/-! ## The index register and memory (43_memory_index.md) -/

namespace Sys2Proof.Machine

/-- The frame of a write to I after the advance of the cycle. -/
theorem State.advance_setI_frame (s : State) (w : Word) :
    SameRegistersBut [] s (s.advance.setI w) ∧ SameBesidesVI s (s.advance.setI w) := by
  simp [SameRegistersBut, SameBesidesVI, SameStack, SameTimers, SameMemory, SameControl]

/-- Settles O45: one write of I; 12 bits extend to 16 without loss. -/
theorem loadIndex : Obligations.LoadIndex := by
  unfold Obligations.LoadIndex
  refine fun nnn => ⟨decodeWord_encode (.ldI nnn), fun s => ?_⟩
  refine ⟨_, rfl, ?_, s.advance_setI_frame _⟩
  exact BitVec.toNat_setWidth_of_le (by decide)

/-- Settles O46: one write of I, mod 0x10000. -/
theorem addToIndex : Obligations.AddToIndex := by
  unfold Obligations.AddToIndex
  refine fun x s => ⟨decodeWord_encode (.addIVx x), ?_⟩
  exact ⟨_, rfl, BitVec.toNat_ofNat _ _, s.advance_setI_frame _⟩

/-- Settles O47: FX29 faults in mode `fault` above 0xF, and otherwise its effect is one write of I, at most
5 * 255. -/
theorem indexOfAGlyph : Obligations.IndexOfAGlyph := by
  unfold Obligations.IndexOfAGlyph
  refine fun x s => ⟨decodeWord_encode (.ldFVx x), fun h => ?_, fun h => ?_⟩
  · exact (exec_of_fault (.ldFVx x) s .fontRange (some (s.readV x).toNat) (if_pos h)).1
  · have hno : faultOf (.ldFVx x) s = none := if_neg fun hf =>
      h.elim (fun hm => hm hf.1) fun hv => Nat.not_lt.mpr hv hf.2
    refine ⟨_, exec_of_no_fault _ s hno, (s.advance_setI_frame _).1, (s.advance_setI_frame _).2, ?_⟩
    have hbyte := (s.readV x).isLt
    rw [effect, State.setI_i, BitVec.toNat_ofNat, glyphOf]
    split <;> omega

/-- The three digits of FX33 are read back at their addresses: I, I + 1 and I + 2 differ, mod 4096 too. -/
theorem effect_ldBVx_digits (x : RegIdx) (s : State) :
    (effect (.ldBVx x) s).memRead s.i.toNat = hundreds (s.readV x) ∧
    (effect (.ldBVx x) s).memRead (s.i.toNat + 1) = tens (s.readV x) ∧
    (effect (.ldBVx x) s).memRead (s.i.toNat + 2) = ones (s.readV x) := by
  have h01 : s.i.toNat % 4096 ≠ (s.i.toNat + 1) % 4096 := by omega
  have h02 : s.i.toNat % 4096 ≠ (s.i.toNat + 2) % 4096 := by omega
  have h12 : (s.i.toNat + 1) % 4096 ≠ (s.i.toNat + 2) % 4096 := by omega
  simp only [effect, State.memRead_memWrite, if_true, if_neg h01, if_neg h02, if_neg h12, and_self]

/-- Settles O48: three stores after the advance. -/
theorem decimalDigitsAreStored : Obligations.DecimalDigitsAreStored := by
  unfold Obligations.DecimalDigitsAreStored
  refine fun x s => ⟨decodeWord_encode (.ldBVx x), ?_⟩
  obtain ⟨h0, h1, h2⟩ := effect_ldBVx_digits x s
  refine ⟨effect (.ldBVx x) s, rfl, ?_, ?_, ?_, effect_ldBVx_memory x s, fun _ _ => rfl, rfl, ⟨rfl, rfl⟩, ⟨rfl, rfl⟩,
    rfl, rfl, rfl, rfl, rfl⟩
  · rw [h0, hundreds_toNat]
  · rw [h1, tens_toNat]
  · rw [h2, ones_toNat]

/-- I after a block transfer of X + 1 bytes, as a number (R197, R198). -/
theorem indexAfterTransfer_toNat (s : State) (x : RegIdx) : (indexAfterTransfer s (x.toNat + 1)).toNat =
    if s.config.loadStoreIncrementsI then (s.i.toNat + x.toNat + 1) % 0x10000 else s.i.toNat := by
  unfold indexAfterTransfer
  split
  · exact BitVec.toNat_ofNat _ _
  · rfl

/-- Settles O49: the block store, and the write of I after it. -/
theorem registersAreStored : Obligations.RegistersAreStored := by
  unfold Obligations.RegistersAreStored
  refine fun x s => ⟨decodeWord_encode (.ldIMemVx x), effect (.ldIMemVx x) s, rfl, fun r hr => ?_,
    effect_ldIMemVx_memory x s, fun r _ => ?_, indexAfterTransfer_toNat s x, ?_⟩
  · have hstored := (s.advance.memRead_storeV (x.toNat + 1) x.isLt (s.i.toNat + r.toNat)).1 r.toNat
      (Nat.lt_succ_of_le hr) rfl
    rw [BitVec.ofNat_toNat, BitVec.setWidth_eq] at hstored
    exact hstored
  · simp [effect]
  · simp [effect, SameStack, SameTimers, SameControl]

/-- Settles O50: the block load, and the write of I after it. -/
theorem registersAreLoaded : Obligations.RegistersAreLoaded := by
  unfold Obligations.RegistersAreLoaded
  refine fun x s => ⟨decodeWord_encode (.ldVxIMem x), effect (.ldVxIMem x) s, rfl, fun r => ?_,
    indexAfterTransfer_toNat s x, ?_⟩
  · have hloaded := s.advance.readV_loadV (x.toNat + 1) x.isLt r
    simp only [Nat.lt_succ_iff] at hloaded
    exact hloaded
  · simp [effect, SameBesidesVI, SameStack, SameTimers, SameMemory, SameControl]

end Sys2Proof.Machine

/-! ## The key polls (45_keypad.md R231 to R234) and the timer instructions (46_timers.md) -/

namespace Sys2Proof.Machine

/-- Settles O55: in mode `fault` above 0xF the fault of the poll, otherwise one snapshot and a conditional skip. -/
theorem keyPollsSkip : Obligations.KeyPollsSkip := by
  unfold Obligations.KeyPollsSkip
  refine fun x s => ⟨decodeWord_encode (.skp x), decodeWord_encode (.sknp x), fun h => ⟨?_, ?_⟩, fun h => ⟨?_, ?_⟩⟩
  · exact (exec_of_fault (.skp x) s .keyRange (some (s.readV x).toNat) (if_pos h)).1
  · exact (exec_of_fault (.sknp x) s .keyRange (some (s.readV x).toNat) (if_pos h)).1
  · obtain ⟨hregs, hrest, hpc⟩ := s.takeSample.advance_skipIf_spec (polledKey s x == true)
      (p := polledKey s x = true) beq_iff_eq
    refine ⟨_, exec_of_no_fault (.skp x) s (if_neg h), hpc, ?_, hregs, hrest⟩
    simp [effect]
  · obtain ⟨hregs, hrest, hpc⟩ := s.takeSample.advance_skipIf_spec (polledKey s x == false)
      (p := ¬ polledKey s x = true) (by simp)
    refine ⟨_, exec_of_no_fault (.sknp x) s (if_neg h), ?_, ?_, hregs, hrest⟩
    · rw [ite_not] at hpc
      exact hpc
    · simp [effect]

/-- Settles O57: one write each, and the timer step of the same cycle counts down what it left. -/
theorem timerInstructions : Obligations.TimerInstructions := by
  unfold Obligations.TimerInstructions
  refine fun x => ⟨⟨decodeWord_encode (.ldVxDt x), fun s => ?_⟩, ⟨decodeWord_encode (.ldDtVx x), fun s => ?_⟩,
    decodeWord_encode (.ldStVx x), fun s => ?_⟩
  · obtain ⟨hx, hregs, hrest⟩ := s.advance_writeV_spec x s.dt
    refine ⟨_, rfl, hx, hregs, hrest, fun hp => ?_⟩
    rw [finishCycle_of_running _ hp]
    exact countDown_toNat s.dt
  · refine ⟨_, exec_ldDtVx x s, rfl, rfl, fun _ _ => rfl, rfl, ⟨rfl, rfl⟩, fun _ => rfl, rfl, ⟨rfl, rfl, rfl, rfl⟩,
      fun hp => ?_⟩
    rw [finishCycle_of_running _ hp]
    exact countDown_toNat (s.readV x)
  · refine ⟨_, exec_ldStVx x s, rfl, rfl, fun _ _ => rfl, rfl, ⟨rfl, rfl⟩, fun _ => rfl, rfl, ⟨rfl, rfl, rfl, rfl⟩,
      fun hp => ?_⟩
    rw [finishCycle_of_running _ hp]
    exact countDown_toNat (s.readV x)

end Sys2Proof.Machine

/-! ## DRW (44_display.md R212 to R217, R220) -/

namespace Sys2Proof.Machine

/-- When set bits collide, in the order in which they are drawn: the bit at position `j` finds its cell as the bits
before it left it (R214). No premise on the cells. -/
theorem drawPixels_collision_iff (fb : Framebuffer) (ps : List Pixel) : (drawPixels fb ps).2 = true ↔
    ∃ j, ∃ h : j < ps.length, (fb.cell ps[j] ^^ decide ((ps.take j).count ps[j] % 2 = 1)) = true := by
  induction ps using List.reverseRecOn with
  | nil => simp [drawPixels]
  | append_singleton ps p ih =>
    have hlast : (drawPixels fb (ps ++ [p])).2 = ((drawPixels fb ps).2 || (drawPixels fb ps).1.cell p) := by
      rw [drawPixels, List.foldl_append]; rfl
    rw [hlast, Bool.or_eq_true, ih, drawPixels_cell]
    constructor
    · rintro (⟨j, hj, hc⟩ | hc)
      · refine ⟨j, by simp; omega, ?_⟩
        rwa [List.getElem_append_left hj, List.take_append_of_le_length hj.le]
      · refine ⟨ps.length, by simp, ?_⟩
        simpa using hc
    · rintro ⟨j, hj, hc⟩
      rw [List.length_append, List.length_singleton] at hj
      rcases Nat.lt_succ_iff_lt_or_eq.mp hj with hlt | rfl
      · rw [List.getElem_append_left hlt, List.take_append_of_le_length hlt.le] at hc
        exact .inl ⟨j, hlt, hc⟩
      · exact .inr (by simpa using hc)

/-- The cells that `DRW Vx, Vy, n` draws. -/
def drwPixels (x y : RegIdx) (n : Nibble) (s : State) : List Pixel :=
  s.spritePixels (s.readV x).toNat (s.readV y).toNat n.toNat

section Drw

variable (x y : RegIdx) (n : Nibble) (s : State)

/-- The framebuffer after DRW: a cell is inverted once for each bit drawn on it. -/
theorem effect_drw_cell (p : Pixel) : (effect (.drw x y n) s).fb.cell p =
    (s.fb.cell p ^^ decide ((drwPixels x y n s).count p % 2 = 1)) :=
  drawPixels_cell s.fb (drwPixels x y n s) p

/-- VF after DRW: the collision. -/
theorem effect_drw_vf : (effect (.drw x y n) s).readV vf = flagByte (drawPixels s.fb (drwPixels x y n s)).2 :=
  (State.readV_writeV _ _ _ _).trans (if_pos rfl)

/-- The frame of DRW. -/
theorem effect_drw_frame : SameRegistersBut [vf] s (effect (.drw x y n) s) ∧ (effect (.drw x y n) s).i = s.i ∧
    SameStack s (effect (.drw x y n) s) ∧ SameTimers s (effect (.drw x y n) s) ∧
    SameMemory s (effect (.drw x y n) s) ∧ SameControl s (effect (.drw x y n) s) :=
  ⟨.of_one fun _ hr => State.readV_writeV_of_ne _ _ hr, rfl, ⟨rfl, rfl⟩, ⟨rfl, rfl⟩, fun _ => rfl,
    ⟨rfl, rfl, rfl, rfl⟩⟩

theorem mem_drwPixels (p : Pixel) : p ∈ drwPixels x y n s ↔ ∃ r < n.toNat, ∃ k < 8,
    (s.memRead (s.i.toNat + r)).getLsbD (7 - k) = true ∧
    p = (((s.readV x).toNat + k) % s.config.fbW, ((s.readV y).toNat + r) % s.config.fbH) :=
  s.mem_spritePixels _ _ _ p

theorem drwPixels_nodup (hw : 8 ≤ s.config.fbW) (hh : 15 ≤ s.config.fbH) : (drwPixels x y n s).Nodup :=
  s.spritePixels_nodup _ _ _ n.isLt hw hh

end Drw

theorem flagByte_eq_one_iff (c : Bool) : flagByte c = 1 ↔ c = true := by cases c <;> decide
theorem flagByte_eq_zero_iff (c : Bool) : flagByte c = 0 ↔ ¬ c = true := by cases c <;> decide

/-- Settles O52: the list of the statement is the list DRW draws. -/
theorem drawXorsBitAfterBit : Obligations.DrawXorsBitAfterBit := by
  unfold Obligations.DrawXorsBitAfterBit
  refine fun x y n s => ⟨decodeWord_encode (.drw x y n), fun _ => ?_⟩
  have hcollides := drawPixels_collision_iff s.fb (drwPixels x y n s)
  refine ⟨effect (.drw x y n) s, rfl, ⟨effect_drw_cell x y n s, fun h => ?_, fun h => ?_⟩, effect_drw_frame x y n s⟩
  · rw [effect_drw_vf, flagByte_eq_one_iff, hcollides]
    exact h
  · rw [effect_drw_vf, flagByte_eq_zero_iff, hcollides]
    exact h

/-- Where the bits of a sprite have different cells, a cell is inverted exactly when it is one of them. -/
theorem effect_drw_cell_of_nodup (x y : RegIdx) (n : Nibble) (s : State) (h : (drwPixels x y n s).Nodup)
    (p : Pixel) : (effect (.drw x y n) s).fb.cell p = (s.fb.cell p ^^ decide (p ∈ drwPixels x y n s)) := by
  rw [effect_drw_cell, h.count]
  by_cases hp : p ∈ drwPixels x y n s <;> simp [hp]

/-- Where the bits of a sprite have different cells, VF is 1 exactly when one of the cells was set before. -/
theorem collision_iff_of_nodup (fb : Framebuffer) (ps : List Pixel) (h : ps.Nodup) :
    (drawPixels fb ps).2 = true ↔ ∃ p, p ∈ ps ∧ fb.cell p = true := by
  rw [drawPixels_collision fb ps h, List.any_eq_true]

/-- Settles O53: on at least 8 x 15 cells the bits of a sprite have different cells. -/
theorem drawInvertsExactlyTheSprite : Obligations.DrawInvertsExactlyTheSprite := by
  unfold Obligations.DrawInvertsExactlyTheSprite
  intro x y n s hw hh
  have hnodup := drwPixels_nodup x y n s hw hh
  have hcell := effect_drw_cell_of_nodup x y n s hnodup
  have hcollides := collision_iff_of_nodup s.fb _ hnodup
  simp only [mem_drwPixels] at hcell hcollides
  refine ⟨effect (.drw x y n) s, rfl, ⟨fun p hp => ?_, fun p hp => ?_, fun h => ?_, fun h => ?_⟩,
    (effect_drw_frame x y n s).1⟩
  · rw [hcell, decide_eq_true hp, Bool.xor_true]
  · rw [hcell, decide_eq_false hp, Bool.xor_false]
  · rw [effect_drw_vf, flagByte_eq_one_iff, hcollides]
    exact h
  · rw [effect_drw_vf, flagByte_eq_zero_iff, hcollides]
    exact h

/-- A second draw of the same sprite draws the same cells: the first left its coordinates, I and memory alone. -/
theorem drwPixels_effect_drw (x y : RegIdx) (n : Nibble) (s : State) (hx : x ≠ vf) (hy : y ≠ vf) :
    drwPixels x y n (effect (.drw x y n) s) = drwPixels x y n s := by
  obtain ⟨hregs, hi, -, -, hmem, -, -, -, hc⟩ := effect_drw_frame x y n s
  have hrx := hregs x fun h => hx (List.mem_singleton.mp h)
  have hry := hregs y fun h => hy (List.mem_singleton.mp h)
  rw [drwPixels, drwPixels, hrx, hry]
  exact s.spritePixels_congr _ _ _ _ hi hc hmem

/-- A second draw of a sprite whose bits have different cells collides where the first draw set a cell (C2). -/
theorem collision_of_second_draw (x y : RegIdx) (n : Nibble) (s : State) (h : (drwPixels x y n s).Nodup) :
    (drawPixels (effect (.drw x y n) s).fb (drwPixels x y n s)).2 = true ↔
      ∃ p ∈ drwPixels x y n s, s.fb.cell p = false := by
  rw [collision_iff_of_nodup _ _ h]
  refine exists_congr fun p => and_congr_right fun hp => ?_
  rw [effect_drw_cell_of_nodup x y n s h, decide_eq_true hp, Bool.xor_true, Bool.not_eq_true']

/-- Settles O54: the second draw inverts each cell as often as the first did. -/
theorem drawingTwiceRestores : Obligations.DrawingTwiceRestores := by
  unfold Obligations.DrawingTwiceRestores
  intro x y n s hx hy
  have hsame := drwPixels_effect_drw x y n s hx hy
  refine ⟨effect (.drw x y n) s, effect (.drw x y n) (effect (.drw x y n) s), rfl, rfl, fun p => ?_,
    fun hw hh => ?_⟩
  · rw [effect_drw_cell, hsame, effect_drw_cell, Bool.xor_assoc, Bool.xor_self, Bool.xor_false]
  · rw [effect_drw_vf, hsame, flagByte_eq_one_iff, collision_of_second_draw x y n s (drwPixels_nodup x y n s hw hh)]
    constructor
    · rintro ⟨p, hp, hcell⟩
      obtain ⟨r, hr, k, hk, hbit, rfl⟩ := (mem_drwPixels x y n s p).mp hp
      exact ⟨r, hr, k, hk, hbit, hcell⟩
    · rintro ⟨r, hr, k, hk, hbit, hcell⟩
      exact ⟨_, (mem_drwPixels x y n s _).mpr ⟨r, hr, k, hk, hbit, rfl⟩, hcell⟩

end Sys2Proof.Machine
